-- ==== Sys2Proof/Word.lean ====
section
/-! DEFINITION. The machine's Word (10_state.md R20), the host's byte (00_scope.md R5) and the name of
a general register (10_state.md R21). -/

namespace Sys2Proof

/-- "An unsigned 16-bit integer": data, address and instruction encoding alike (R20).
Arithmetic on it wraps modulo 2^16 (00_scope.md R8). -/
abbrev Word := BitVec 16

/-- One character or output byte, 0..255 (00_scope.md R5). -/
abbrev Byte := BitVec 8

/-- The number of a general register R0..R7 (10_state.md R21, 30_encoding.md R85). -/
abbrev Reg := Fin 8

end Sys2Proof
end

