-- ==== Sys2Proof/Config.lean ====
section
/-! DEFINITION. The parameters of 00_scope.md R6. The two OPEN ones are opaque: no value of theirs
can be proved. The others hold the value R6 gives this hardware, each a decision of the spec. -/

namespace Sys2Proof.Config

/-- `PC_START`, the PC at the first cycle (R6, 70_reset_and_hazards.md R246).
DESIGN CHOICE, unsafe: log 4. -/
def pcStart : Word := 0x3000#16

/-- `KBSR`, the keyboard-status address (R6, 20_memory.md R62). -/
def kbsr : Word := 0xFE00#16

/-- `KBDR`, the keyboard-data address (R6, 20_memory.md R62). -/
def kbdr : Word := 0xFE02#16

/-- `KBSR_READY`, what a ready status read returns (R6, 20_memory.md R53).
DESIGN CHOICE, unsafe: log 8. -/
def kbsrReady : Word := 0x8000#16

/-- `EOF_WORD`, what an end-of-stream read stores (R6, 43_system.md R182).
DESIGN CHOICE, unsafe: log 10. -/
def eofWord : Word := 0xFFFF#16

/-- `LOAD_TOP`, the last address the image loader may write (70_reset_and_hazards.md R243,
90_conflicts.md C5). DESIGN CHOICE, unsafe: log 25. -/
def loadTop : Nat := 0xFFFF

/-- `HALT_NOTICE`, the bytes HALT writes: OPEN (R6), so a free value (log 14, DESIGN CHOICE, safe). -/
opaque haltNotice : List Byte

/-- `IN_PROMPT`, the bytes IN writes before it reads: OPEN (R6), so a free value
(log 14, DESIGN CHOICE, safe). -/
opaque inPrompt : List Byte

end Sys2Proof.Config
end

