-- ==== Sys2Proof/Syntax.lean ====
section
/-! DEFINITION. The instructions: one constructor per row of spec/opcode_table.json, in the table's
order, with the fields of 30_encoding.md R82. Bits the instruction does not read (R83) are no operand,
but for RTI and RES, whose fault reports the whole Word (43_system.md R189, R190; log 7). -/

namespace Sys2Proof

inductive Instr where
  /-- ADD, register form (40_alu.md R110). -/
  | addReg (dst src1 src2 : Reg)
  /-- ADD, immediate form (40_alu.md R111). -/
  | addImm (dst src1 : Reg) (imm5 : BitVec 5)
  /-- AND, register form (40_alu.md R112). -/
  | andReg (dst src1 src2 : Reg)
  /-- AND, immediate form (40_alu.md R113). -/
  | andImm (dst src1 : Reg) (imm5 : BitVec 5)
  /-- NOT (40_alu.md R114). -/
  | not (dst src : Reg)
  /-- BR (41_control.md R130): `mask` is `w[11:9]`, its bits n, z, p from high to low. -/
  | br (mask : BitVec 3) (offset9 : BitVec 9)
  /-- JMP (41_control.md R131). Base 7 is the row RET. -/
  | jmp (base : Reg)
  /-- RET (41_control.md R132): the JMP row with base 7. -/
  | ret
  /-- JSR (41_control.md R133). -/
  | jsr (offset11 : BitVec 11)
  /-- JSRR (41_control.md R134). -/
  | jsrr (base : Reg)
  /-- LD (42_load_store.md R150). -/
  | ld (dst : Reg) (offset9 : BitVec 9)
  /-- LDI (42_load_store.md R151). -/
  | ldi (dst : Reg) (offset9 : BitVec 9)
  /-- LEA (42_load_store.md R153). -/
  | lea (dst : Reg) (offset9 : BitVec 9)
  /-- ST (42_load_store.md R154). -/
  | st (src : Reg) (offset9 : BitVec 9)
  /-- STI (42_load_store.md R155). -/
  | sti (src : Reg) (offset9 : BitVec 9)
  /-- LDR (42_load_store.md R152). -/
  | ldr (dst base : Reg) (offset6 : BitVec 6)
  /-- STR (42_load_store.md R156). -/
  | str (src base : Reg) (offset6 : BitVec 6)
  /-- TRAP (43_system.md R180). The six service vectors are rows of their own. -/
  | trap (vector : BitVec 8)
  /-- GETC (43_system.md R182): TRAP 0x20. -/
  | getc
  /-- OUT (43_system.md R183): TRAP 0x21. -/
  | out
  /-- PUTS (43_system.md R184): TRAP 0x22. -/
  | puts
  /-- IN (43_system.md R185): TRAP 0x23. -/
  | inChar
  /-- PUTSP (43_system.md R186): TRAP 0x24. -/
  | putsp
  /-- HALT (43_system.md R187): TRAP 0x25. -/
  | halt
  /-- RTI (43_system.md R189); `low` is `w[11:0]`, ignored but for the fault's record. -/
  | rti (low : BitVec 12)
  /-- RES, the reserved opcode (43_system.md R190); `low` as for RTI. -/
  | res (low : BitVec 12)
  deriving DecidableEq, Repr

end Sys2Proof
end

