-- ==== Sys2Proof/Machine/State.lean ====
section
/-! DEFINITION. The machine's state (10_state.md R34, R35), its faults and refusals, and reset. Plain
data only. INVENTORY.md lists every field with its rule. -/

namespace Sys2Proof.Machine

/-- The faults of 60_exceptions.md R213. Both end the run in status `Faulted` (R210, R213). The meaning
that raises one answers the NEXT state, with the fault recorded in the status; a step of a machine
that is already faulted answers the fault (log 17). -/
inductive Fault where
  /-- Raised by RTI and RES (43_system.md R189, R190): the address the Word was fetched from and the
  Word (60_exceptions.md R211). Safe: the hardware ends the run at the same point. -/
  | unsupported (addr word : Word)
  /-- Raised by PUTS and PUTSP when no zero Word stands between the start and 0xFFFF (43_system.md R184,
  R186). Safe: the model-only fault of the spec, where the original may go on (log 11). -/
  | stringOverrun (start : Word)
  deriving DecidableEq, Repr

/-- Refusals: no arm of `exec` uses any, since every row of the opcode table has its meaning. -/
inductive Refusal where
  /-- Raised by an arm of `exec` that has no meaning yet; none is left. Safe: the model stops. -/
  | notModelled (mnemonic : String)
  deriving DecidableEq, Repr

/-- The run status of 10_state.md R32. -/
inductive RunStatus where
  | loaded
  | running
  | halted
  | faulted (info : Fault)
  deriving DecidableEq, Repr

/-- The services that wait for the host's character (60_exceptions.md R226). -/
inductive WaitService where
  | getc
  | inChar
  deriving DecidableEq, Repr

/-- One item of the host input stream: the answers that consume one (00_scope.md R5). -/
inductive HostChar where
  | char (c : Byte)
  | eof
  deriving DecidableEq, Repr

/-- What the host may do between two steps (60_exceptions.md R214, R228): make one more item of its
input stream available, or raise the interrupt request. -/
inductive HostEvent where
  | deliver (x : HostChar)
  | interrupt
  deriving DecidableEq, Repr

/-- Memory: the Words that are not 0x0000, as (address, Word) pairs. An unlisted address reads as
`unlistedWord`. The one canonical form is `Memory.Wf` in Machine/Ops.lean. The cell is a Word because
the hardware has no narrower access and no byte order (20_memory.md R50, R58; log 1). -/
abbrev Memory := List (Nat × Word)

/-- What a Word that nothing has written reads as: "zero-initialized at start" (10_state.md R35). -/
def unlistedWord : Word := 0x0000#16

structure State where
  /-- R0..R7 (10_state.md R21). -/
  regs : Vector Word 8
  /-- PC (R24). -/
  pc : Word
  /-- COND (R27): NEG 0b100, ZRO 0b010, POS 0b001. -/
  cond : BitVec 3
  /-- The 65536 Words (20_memory.md R50), KBSR and KBDR among them. -/
  mem : Memory
  /-- Running State (R30). -/
  running : Bool
  /-- The run status (R32). -/
  status : RunStatus
  /-- The instruction that waits for `HostRead`, if one does (60_exceptions.md R226; log 19). -/
  wait : Option WaitService
  /-- The items of the host input stream made available and not yet consumed, first to be read first
  (00_scope.md R5; log 20). -/
  input : List HostChar
  /-- The bytes passed to `HostPut`, oldest first (00_scope.md R5). -/
  output : List Byte
  /-- The model's own field: what the host does just before each coming step, the next step's events
  first (log 20). An empty list is a host that does nothing more. -/
  host : List (List HostEvent)
  deriving DecidableEq, Repr

/-- The COND value ZRO (10_state.md R27). -/
def condZro : BitVec 3 := 0b010#3

/-- The machine in status `Loaded` with nothing loaded (10_state.md R35, 70_reset_and_hazards.md R240).
The registers, PC and COND are DESIGN CHOICE, unsafe (log 2, log 4, log 3); so are the empty input and
schedule (log 20). -/
def State.reset : State where
  regs := Vector.replicate 8 0x0000#16
  pc := Config.pcStart
  cond := condZro
  mem := []
  running := true
  status := .loaded
  wait := none
  input := []
  output := []
  host := []

end Sys2Proof.Machine
end

