-- ==== Sys2Proof/Machine/Flags.lean ====
section
/-! DEFINITION. The condition register: its values, the flag update and the branch test
(10_state.md R27, 41_control.md R130). The bit of each value is PRESUMED, unsafe (log 6). -/

namespace Sys2Proof.Machine

/-- NEG (R27). -/
def condNeg : BitVec 3 := 0b100#3

/-- POS (R27). -/
def condPos : BitVec 3 := 0b001#3

/-- The value `setcc(v)` gives COND (R27). -/
def condCode (v : Word) : BitVec 3 :=
  if v.msb then condNeg else if v = 0#16 then condZro else condPos

/-- `COND <- setcc(v)` (R27). -/
def State.setcc (s : State) (v : Word) : State := { s with cond := condCode v }

/-- The test of BR: `(cond_mask & COND) != 0` (41_control.md R130). -/
abbrev State.CondHolds (s : State) (mask : BitVec 3) : Prop := mask &&& s.cond ≠ 0#3

end Sys2Proof.Machine
end

