-- ==== Sys2Proof/Machine/Ops.lean ====
section
/-! DEFINITION. The named operations over memory, registers, the host and the run status: the
primitives of 00_scope.md R10. -/

namespace Sys2Proof.Machine

/-! ## The memory array (20_memory.md R50) -/

/-- The one canonical form: addresses strictly rising and inside the space, no Word listed that an
unlisted address reads as anyway. -/
abbrev Memory.Wf (m : Memory) : Prop :=
  m.Pairwise (fun c d => c.1 < d.1) ∧ ∀ c ∈ m, c.1 < 65536 ∧ c.2 ≠ unlistedWord

/-- The Word at an address. -/
def Memory.read : Memory → Nat → Word
  | [], _ => unlistedWord
  | c :: m, a => if c.1 = a then c.2 else Memory.read m a

/-- The memory with no cell at one address. -/
def Memory.erase (m : Memory) (a : Nat) : Memory := m.filter fun c => c.1 ≠ a

/-- The memory with one cell more, before the first cell at a higher address. -/
def Memory.insert : Memory → Nat × Word → Memory
  | [], c => [c]
  | d :: m, c => if c.1 < d.1 then c :: d :: m else d :: Memory.insert m c

/-- The memory with the Word at one address replaced, in canonical form: a Word that an unlisted
address reads as anyway is not listed. -/
def Memory.write (m : Memory) (a : Nat) (v : Word) : Memory :=
  if v = unlistedWord then m.erase a else (m.erase a).insert (a, v)

/-! ## Registers -/

/-- `x[i]` (00_scope.md R10). -/
def State.reg (s : State) (r : Reg) : Word := s.regs[r]

/-- `x[i] <- v` (00_scope.md R10). No register is hard-wired (10_state.md R21). -/
def State.setReg (s : State) (r : Reg) (v : Word) : State :=
  { s with regs := s.regs.set r v }

/-- `pc <- target` (00_scope.md R10): every Word is a valid target (41_control.md R135). -/
def State.setPc (s : State) (target : Word) : State := { s with pc := target }

/-- `x[dst] <- v; setcc(x[dst])`: how every flag-defining instruction ends (10_state.md R27, R28). -/
def State.writeResult (s : State) (dst : Reg) (v : Word) : State := (s.setReg dst v).setcc v

/-! ## The host (00_scope.md R5) -/

/-- `zext_N(f)` (00_scope.md R9). -/
def zext {n : Nat} (f : BitVec n) : Word := f.setWidth 16

/-- The Word an item of the input stream becomes: the character zero-extended, or `EOF_WORD`
(20_memory.md R53, 43_system.md R182). DESIGN CHOICE, unsafe: log 9, log 10. -/
def charWord : HostChar → Word
  | .char c => zext c
  | .eof => Config.eofWord

/-- `HostRead()`: the next item's Word and the state with the item consumed, or nothing while the host
has not answered (43_system.md R191). -/
def State.hostRead (s : State) : Option (Word × State) :=
  match s.input with
  | [] => none
  | x :: rest => some (charWord x, { s with input := rest })

/-- `HostPut` of each byte in order (43_system.md R192). -/
def State.emit (s : State) (bytes : List Byte) : State := { s with output := s.output ++ bytes }

/-! ## Storage (20_memory.md R52 to R56) -/

/-- `ArrayRead(a)`: no keyboard poll (R56). -/
def State.arrayRead (s : State) (a : Word) : Word := s.mem.read a.toNat

/-- `MemWrite(a, 1, v)`: plain at every address (R55; log 29). -/
def State.memWrite (s : State) (a v : Word) : State := { s with mem := s.mem.write a.toNat v }

/-- The keyboard poll (R53): `HostPoll` answers the next available item, which is consumed, or `None`.
The exact status Word and its being stored are DESIGN CHOICE, unsafe: log 8. -/
def State.pollKeyboard (s : State) : State :=
  match s.hostRead with
  | none => s.memWrite Config.kbsr 0x0000#16
  | some (v, s') => (s'.memWrite Config.kbdr v).memWrite Config.kbsr Config.kbsrReady

/-- What a `MemRead` of `a` does before it reads: a poll at 0xFE00, nothing elsewhere (R52). -/
def State.intercept (s : State) (a : Word) : State :=
  if a = Config.kbsr then s.pollKeyboard else s

/-- `MemRead(a, 1)`: the Word read and the state after (R52, R53). -/
def State.memRead (s : State) (a : Word) : Word × State :=
  ((s.intercept a).arrayRead a, s.intercept a)

/-! ## Faults (60_exceptions.md R210 to R213) and Running State (10_state.md R30) -/

/-- `raise`: the run ends in `Faulted(info)`; nothing is saved, no handler exists, and the rest of the
state stays as it is (60_exceptions.md R210, R211, R218). There is no return from it (R219). -/
def State.raise (s : State) (f : Fault) : State := { s with status := .faulted f }

/-- `raise Unsupported(addr = PC - 1, word)` (43_system.md R189): on entry PC is the address the Word
was fetched from plus 1. -/
def State.raiseUnsupported (s : State) (word : Word) : State :=
  s.raise (.unsupported (s.pc - 1#16) word)

/-- `Running <- false` (10_state.md R30). -/
def State.stopRunning (s : State) : State := { s with running := false }

end Sys2Proof.Machine
end

