-- ==== Sys2Proof/Machine/Operands.lean ====
section
/-! DEFINITION. Operand forms: sign extension and the bytes of a Word (00_scope.md R9, R7), and the
addressing modes of 42_load_store.md R157. On entry PC is the instruction's address plus 1
(10_state.md R24). -/

namespace Sys2Proof.Machine

/-- `sext_N(f)` (00_scope.md R9). -/
def sext {n : Nat} (f : BitVec n) : Word := f.signExtend 16

/-- `v[7:0]`. -/
def lowByte (v : Word) : Byte := v.extractLsb' 0 8

/-- `v[15:8]`. -/
def highByte (v : Word) : Byte := v.extractLsb' 8 8

/-- A Word from its two bytes, high byte first: `hi ++ lo` (00_scope.md R8). -/
def wordOfBytes (hi lo : Byte) : Word := hi ++ lo

/-- PC-relative: `PC + sext(offset)` (42_load_store.md R157, 41_control.md R130, R133). -/
def State.pcRelative {n : Nat} (s : State) (offset : BitVec n) : Word := s.pc + sext offset

/-- Base plus offset: `x[base] + sext_6(offset6)` (42_load_store.md R157). -/
def State.baseOffset (s : State) (base : Reg) (offset6 : BitVec 6) : Word := s.reg base + sext offset6

/-- Indirect: the address read at the PC-relative pointer, and the state after that read
(42_load_store.md R151, R155). -/
def State.indirect (s : State) (offset9 : BitVec 9) : Word × State := s.memRead (s.pcRelative offset9)

end Sys2Proof.Machine
end

