-- ==== Sys2Proof/Machine/Control.lean ====
section
/-! DEFINITION. Control transfer: BR, JMP, RET, JSR, JSRR (41_control.md). -/

namespace Sys2Proof.Machine

/-- BR (41_control.md R130). -/
def execBr (mask : BitVec 3) (offset9 : BitVec 9) (s : State) : Host.Outcome State Fault Refusal :=
  .next (if s.CondHolds mask then s.setPc (s.pcRelative offset9) else s)

/-- JMP (41_control.md R131). -/
def execJmp (base : Reg) (s : State) : Host.Outcome State Fault Refusal :=
  .next (s.setPc (s.reg base))

/-- RET: JMP with base 7 (41_control.md R132). -/
def execRet (s : State) : Host.Outcome State Fault Refusal :=
  .next (s.setPc (s.reg 7))

/-- JSR (41_control.md R133): the target is computed from the PC before the jump. -/
def execJsr (offset11 : BitVec 11) (s : State) : Host.Outcome State Fault Refusal :=
  .next ((s.setReg 7 s.pc).setPc (s.pcRelative offset11))

/-- JSRR (41_control.md R134): the base is read AFTER the write of R7, the source's stated order
(DESIGN CHOICE, unsafe: log 22). -/
def execJsrr (base : Reg) (s : State) : Host.Outcome State Fault Refusal :=
  let linked := s.setReg 7 s.pc
  .next (linked.setPc (linked.reg base))

end Sys2Proof.Machine
end

