-- ==== Sys2Proof/Machine/LoadStore.lean ====
section
/-! DEFINITION. Loads, stores and LEA (42_load_store.md). -/

namespace Sys2Proof.Machine

/-- `x[dst] <- MemRead(ea, 1); setcc(x[dst])`: how LD, LDI and LDR end (42_load_store.md R150). -/
def State.loadFrom (s : State) (dst : Reg) (ea : Word) : State :=
  (s.memRead ea).2.writeResult dst (s.memRead ea).1

/-- LD (42_load_store.md R150). -/
def execLd (dst : Reg) (offset9 : BitVec 9) (s : State) : Host.Outcome State Fault Refusal :=
  .next (s.loadFrom dst (s.pcRelative offset9))

/-- LDI (42_load_store.md R151): the pointer read, then the read at the pointer. -/
def execLdi (dst : Reg) (offset9 : BitVec 9) (s : State) : Host.Outcome State Fault Refusal :=
  .next ((s.indirect offset9).2.loadFrom dst (s.indirect offset9).1)

/-- LDR (42_load_store.md R152). -/
def execLdr (dst base : Reg) (offset6 : BitVec 6) (s : State) : Host.Outcome State Fault Refusal :=
  .next (s.loadFrom dst (s.baseOffset base offset6))

/-- LEA (42_load_store.md R153): the address itself, no memory access. -/
def execLea (dst : Reg) (offset9 : BitVec 9) (s : State) : Host.Outcome State Fault Refusal :=
  .next (s.writeResult dst (s.pcRelative offset9))

/-- ST (42_load_store.md R154). -/
def execSt (src : Reg) (offset9 : BitVec 9) (s : State) : Host.Outcome State Fault Refusal :=
  .next (s.memWrite (s.pcRelative offset9) (s.reg src))

/-- STI (42_load_store.md R155): the pointer read, then the write at the pointer. -/
def execSti (src : Reg) (offset9 : BitVec 9) (s : State) : Host.Outcome State Fault Refusal :=
  .next ((s.indirect offset9).2.memWrite (s.indirect offset9).1 (s.reg src))

/-- STR (42_load_store.md R156). -/
def execStr (src base : Reg) (offset6 : BitVec 6) (s : State) : Host.Outcome State Fault Refusal :=
  .next (s.memWrite (s.baseOffset base offset6) (s.reg src))

end Sys2Proof.Machine
end

