-- ==== Sys2Proof/Machine/Operate.lean ====
section
/-! DEFINITION. The operate instructions ADD, AND and NOT (40_alu.md). -/

namespace Sys2Proof.Machine

/-- ADD, register form (40_alu.md R110). -/
def execAddReg (dst src1 src2 : Reg) (s : State) : Host.Outcome State Fault Refusal :=
  .next (s.writeResult dst (s.reg src1 + s.reg src2))

/-- ADD, immediate form (40_alu.md R111). -/
def execAddImm (dst src1 : Reg) (imm5 : BitVec 5) (s : State) : Host.Outcome State Fault Refusal :=
  .next (s.writeResult dst (s.reg src1 + sext imm5))

/-- AND, register form (40_alu.md R112). -/
def execAndReg (dst src1 src2 : Reg) (s : State) : Host.Outcome State Fault Refusal :=
  .next (s.writeResult dst (s.reg src1 &&& s.reg src2))

/-- AND, immediate form (40_alu.md R113). -/
def execAndImm (dst src1 : Reg) (imm5 : BitVec 5) (s : State) : Host.Outcome State Fault Refusal :=
  .next (s.writeResult dst (s.reg src1 &&& sext imm5))

/-- NOT (40_alu.md R114). -/
def execNot (dst src : Reg) (s : State) : Host.Outcome State Fault Refusal :=
  .next (s.writeResult dst (~~~(s.reg src)))

end Sys2Proof.Machine
end

