-- ==== Sys2Proof/WellFormed.lean ====
section
/-! DEFINITION. Which terms of `Instr` stand for a row of spec/opcode_table.json. Every field value is
legal (30_encoding.md R85, R87), so the only ill-formed terms are those that an alias row stands for:
JMP with base 7 is the row RET, TRAP with a service's vector is that service's row (R86; log 26). -/

namespace Sys2Proof

/-- The trap vectors of the six services (43_system.md R181). PRESUMED, unsafe: log 13. -/
def serviceVectors : List (BitVec 8) := [0x20#8, 0x21#8, 0x22#8, 0x23#8, 0x24#8, 0x25#8]

/-- The term stands for the row its constructor names. -/
def Instr.wellFormed : Instr → Bool
  | .addReg _ _ _ => true
  | .addImm _ _ _ => true
  | .andReg _ _ _ => true
  | .andImm _ _ _ => true
  | .not _ _ => true
  | .br _ _ => true
  | .jmp base => base ≠ 7
  | .ret => true
  | .jsr _ => true
  | .jsrr _ => true
  | .ld _ _ => true
  | .ldi _ _ => true
  | .lea _ _ => true
  | .st _ _ => true
  | .sti _ _ => true
  | .ldr _ _ _ => true
  | .str _ _ _ => true
  | .trap vector => vector ∉ serviceVectors
  | .getc => true
  | .out => true
  | .puts => true
  | .inChar => true
  | .putsp => true
  | .halt => true
  | .rti _ => true
  | .res _ => true

end Sys2Proof
end

