-- ==== Sys2Proof/Decode.lean ====
section
/-! DEFINITION. The decoder and the encoder of 30_encoding.md, and the opcode table they are held
against. Every instruction is one Word (R80) and every Word decodes (R86), so the decoder refuses
nothing: the two unsupported opcodes decode to RTI and RES, whose meaning is the fault (R87). -/

namespace Sys2Proof

/-- The general register a 3-bit field selects (R85). -/
def regOfBits (b : BitVec 3) : Reg := ⟨b.toNat, b.isLt⟩

/-- The 3-bit field that selects a general register (R85). -/
def regBits (r : Reg) : BitVec 3 := BitVec.ofNat 3 r.val

/-- The register field whose lowest bit is bit `lo` of `w` (R82). -/
def regField (w : Word) (lo : Nat) : Reg := regOfBits (w.extractLsb' lo 3)

/-- JMP, or RET when the base field is 7 (R82, R90). -/
def decodeJmp (w : Word) : Instr :=
  if regField w 6 = 7 then .ret else .jmp (regField w 6)

/-- JSR when `w[11]` is 1, JSRR when it is 0 (R82). -/
def decodeJsr (w : Word) : Instr :=
  if w.extractLsb' 11 1 = 1#1 then .jsr (w.extractLsb' 0 11) else .jsrr (regField w 6)

/-- TRAP by its vector `w[7:0]`: the service's row where there is one (43_system.md R181).
The five vectors other than HALT's are PRESUMED, unsafe: log 13. -/
def decodeTrap (vector : BitVec 8) : Instr :=
  if vector = 0x20#8 then .getc
  else if vector = 0x21#8 then .out
  else if vector = 0x22#8 then .puts
  else if vector = 0x23#8 then .inChar
  else if vector = 0x24#8 then .putsp
  else if vector = 0x25#8 then .halt
  else .trap vector

/-- The instruction a Word stands for: the opcode map of R81 over the fields of R82.
Fourteen of the opcode numbers are PRESUMED, unsafe: log 5. Bits R83 calls ignored are not looked at
(DESIGN CHOICE, unsafe: log 7). The last arm is opcode 15: a 4-bit field has no other value left. -/
def decode (w : Word) : Instr :=
  match (w.extractLsb' 12 4).toNat with
  | 0 => .br (w.extractLsb' 9 3) (w.extractLsb' 0 9)
  | 1 =>
    if w.extractLsb' 5 1 = 1#1 then .addImm (regField w 9) (regField w 6) (w.extractLsb' 0 5)
    else .addReg (regField w 9) (regField w 6) (regField w 0)
  | 2 => .ld (regField w 9) (w.extractLsb' 0 9)
  | 3 => .st (regField w 9) (w.extractLsb' 0 9)
  | 4 => decodeJsr w
  | 5 =>
    if w.extractLsb' 5 1 = 1#1 then .andImm (regField w 9) (regField w 6) (w.extractLsb' 0 5)
    else .andReg (regField w 9) (regField w 6) (regField w 0)
  | 6 => .ldr (regField w 9) (regField w 6) (w.extractLsb' 0 6)
  | 7 => .str (regField w 9) (regField w 6) (w.extractLsb' 0 6)
  | 8 => .rti (w.extractLsb' 0 12)
  | 9 => .not (regField w 9) (regField w 6)
  | 10 => .ldi (regField w 9) (w.extractLsb' 0 9)
  | 11 => .sti (regField w 9) (w.extractLsb' 0 9)
  | 12 => decodeJmp w
  | 13 => .res (w.extractLsb' 0 12)
  | 14 => .lea (regField w 9) (w.extractLsb' 0 9)
  | _ => decodeTrap (w.extractLsb' 0 8)

/-- Format OPR, OPI, UNR, BASE, BASE6 (R82): opcode, two register fields, six low bits. -/
def wordRegReg (op : BitVec 4) (r11 r8 : Reg) (low : BitVec 6) : Word :=
  op ++ regBits r11 ++ regBits r8 ++ low

/-- Format PC9 (R82): opcode, one register field, nine low bits. -/
def wordReg (op : BitVec 4) (r11 : Reg) (low : BitVec 9) : Word := op ++ regBits r11 ++ low

/-- Format BRF (R82): opcode, mask, nine low bits. -/
def wordMask (op : BitVec 4) (mask : BitVec 3) (low : BitVec 9) : Word := op ++ mask ++ low

/-- Format J11 (R82): opcode, flag, eleven low bits. -/
def wordFlag (op : BitVec 4) (flag : BitVec 1) (low : BitVec 11) : Word := op ++ flag ++ low

/-- Format TRP (R82): opcode, four ignored bits, vector. -/
def wordVector (op : BitVec 4) (ignored : BitVec 4) (vector : BitVec 8) : Word := op ++ ignored ++ vector

/-- Format NONE (R82): opcode, twelve low bits. -/
def wordLow (op : BitVec 4) (low : BitVec 12) : Word := op ++ low

/-- `w[5:0]` of the register forms of ADD and AND: mode 0, two ignored bits, `src2`. -/
def lowRegister (src2 : Reg) : BitVec 6 := 0#1 ++ 0#2 ++ regBits src2

/-- `w[5:0]` of the immediate forms of ADD and AND: mode 1, `imm5`. -/
def lowImmediate (imm5 : BitVec 5) : BitVec 6 := 1#1 ++ imm5

/-- The Word of an instruction, from the same tables (R81, R82). Ignored bits are written as R90 says
an assembler writes them: zeros, and ones in `w[5:0]` of NOT. -/
def encode : Instr → Word
  | .addReg dst src1 src2 => wordRegReg 0x1#4 dst src1 (lowRegister src2)
  | .addImm dst src1 imm5 => wordRegReg 0x1#4 dst src1 (lowImmediate imm5)
  | .andReg dst src1 src2 => wordRegReg 0x5#4 dst src1 (lowRegister src2)
  | .andImm dst src1 imm5 => wordRegReg 0x5#4 dst src1 (lowImmediate imm5)
  | .not dst src => wordRegReg 0x9#4 dst src 0b111111#6
  | .br mask offset9 => wordMask 0x0#4 mask offset9
  | .jmp base => wordRegReg 0xC#4 0 base 0#6
  | .ret => wordRegReg 0xC#4 0 7 0#6
  | .jsr offset11 => wordFlag 0x4#4 1#1 offset11
  | .jsrr base => wordRegReg 0x4#4 0 base 0#6
  | .ld dst offset9 => wordReg 0x2#4 dst offset9
  | .ldi dst offset9 => wordReg 0xA#4 dst offset9
  | .lea dst offset9 => wordReg 0xE#4 dst offset9
  | .st src offset9 => wordReg 0x3#4 src offset9
  | .sti src offset9 => wordReg 0xB#4 src offset9
  | .ldr dst base offset6 => wordRegReg 0x6#4 dst base offset6
  | .str src base offset6 => wordRegReg 0x7#4 src base offset6
  | .trap vector => wordVector 0xF#4 0#4 vector
  | .getc => wordVector 0xF#4 0#4 0x20#8
  | .out => wordVector 0xF#4 0#4 0x21#8
  | .puts => wordVector 0xF#4 0#4 0x22#8
  | .inChar => wordVector 0xF#4 0#4 0x23#8
  | .putsp => wordVector 0xF#4 0#4 0x24#8
  | .halt => wordVector 0xF#4 0#4 0x25#8
  | .rti low => wordLow 0x8#4 low
  | .res low => wordLow 0xD#4 low

/-- What the host asks of the decoder: the instruction in the low `nbits` bits of `w`. Every row of
this table is one Word, so the bits above `nbits` are zeros of that one Word. -/
def decodeTableWord (nbits w : Nat) : Option Instr :=
  some (decode (BitVec.ofNat 16 (w % 2 ^ nbits)))

/-! ## The opcode table of spec/opcode_table.json, to hold the decoder against -/

/-- One fixed field of a row: the bits `[lo + len - 1 : lo]` hold `value`. -/
structure FixedField where
  lo : Nat
  len : Nat
  value : Nat
  deriving DecidableEq, Repr

/-- One row: its mnemonic and format, its fixed fields, and the row it refines where it is an alias. -/
structure Row where
  mnemonic : String
  form : String
  fixed : List FixedField
  aliasOf : Option String
  deriving DecidableEq, Repr

/-- The Word holds the row's fixed bits. -/
def Row.fits (r : Row) (w : Word) : Bool :=
  r.fixed.all fun f => (w.extractLsb' f.lo f.len).toNat == f.value

/-- A row whose only fixed bits are its opcode's. -/
def opcodeRow (mnemonic form : String) (opcode : Nat) : Row :=
  ⟨mnemonic, form, [⟨12, 4, opcode⟩], none⟩

/-- A trap service's row: opcode 15 and the service's vector. -/
def serviceRow (mnemonic : String) (vector : Nat) : Row :=
  ⟨mnemonic, "trapvect8", [⟨0, 8, vector⟩, ⟨12, 4, 15⟩], some "TRAP"⟩

/-- The row each constructor stands for, its fixed bits as spec/opcode_table.json gives them. -/
def Instr.row : Instr → Row
  | .addReg _ _ _ => ⟨"ADD", "register", [⟨5, 1, 0⟩, ⟨12, 4, 1⟩], none⟩
  | .addImm _ _ _ => ⟨"ADD", "immediate", [⟨5, 1, 1⟩, ⟨12, 4, 1⟩], none⟩
  | .andReg _ _ _ => ⟨"AND", "register", [⟨5, 1, 0⟩, ⟨12, 4, 5⟩], none⟩
  | .andImm _ _ _ => ⟨"AND", "immediate", [⟨5, 1, 1⟩, ⟨12, 4, 5⟩], none⟩
  | .not _ _ => opcodeRow "NOT" "register" 9
  | .br _ _ => opcodeRow "BR" "pc_offset9" 0
  | .jmp _ => opcodeRow "JMP" "base" 12
  | .ret => ⟨"RET", "base", [⟨6, 3, 7⟩, ⟨12, 4, 12⟩], some "JMP"⟩
  | .jsr _ => ⟨"JSR", "pc_offset11", [⟨11, 5, 9⟩], none⟩
  | .jsrr _ => ⟨"JSRR", "base", [⟨11, 5, 8⟩], none⟩
  | .ld _ _ => opcodeRow "LD" "pc_offset9" 2
  | .ldi _ _ => opcodeRow "LDI" "pc_offset9" 10
  | .lea _ _ => opcodeRow "LEA" "pc_offset9" 14
  | .st _ _ => opcodeRow "ST" "pc_offset9" 3
  | .sti _ _ => opcodeRow "STI" "pc_offset9" 11
  | .ldr _ _ _ => opcodeRow "LDR" "base_offset6" 6
  | .str _ _ _ => opcodeRow "STR" "base_offset6" 7
  | .trap _ => opcodeRow "TRAP" "trapvect8" 15
  | .getc => serviceRow "GETC" 0x20
  | .out => serviceRow "OUT" 0x21
  | .puts => serviceRow "PUTS" 0x22
  | .inChar => serviceRow "IN" 0x23
  | .putsp => serviceRow "PUTSP" 0x24
  | .halt => serviceRow "HALT" 0x25
  | .rti _ => opcodeRow "RTI" "none" 8
  | .res _ => opcodeRow "RES" "none" 13

/-- One term of each constructor, in the table's order. -/
def instrSamples : List Instr :=
  [.addReg 0 0 0, .addImm 0 0 0, .andReg 0 0 0, .andImm 0 0 0, .not 0 0, .br 0 0, .jmp 0, .ret, .jsr 0]
    ++ [.jsrr 0, .ld 0 0, .ldi 0 0, .lea 0 0, .st 0 0, .sti 0 0, .ldr 0 0 0, .str 0 0 0, .trap 0]
    ++ [.getc, .out, .puts, .inChar, .putsp, .halt, .rti 0, .res 0]

/-- The 26 rows of spec/opcode_table.json, in its order. -/
def opcodeTable : List Row := instrSamples.map Instr.row

/-- The bits of a Word that an instruction of this kind reads: all but those R83 lists as not examined.
RTI's and RES's low bits are kept because their fault reports them. -/
def Instr.examined : Instr → Word
  | .addReg _ _ _ => 0xFFE7#16
  | .addImm _ _ _ => 0xFFFF#16
  | .andReg _ _ _ => 0xFFE7#16
  | .andImm _ _ _ => 0xFFFF#16
  | .not _ _ => 0xFFC0#16
  | .br _ _ => 0xFFFF#16
  | .jmp _ => 0xF1C0#16
  | .ret => 0xF1C0#16
  | .jsr _ => 0xFFFF#16
  | .jsrr _ => 0xF9C0#16
  | .ld _ _ => 0xFFFF#16
  | .ldi _ _ => 0xFFFF#16
  | .lea _ _ => 0xFFFF#16
  | .st _ _ => 0xFFFF#16
  | .sti _ _ => 0xFFFF#16
  | .ldr _ _ _ => 0xFFFF#16
  | .str _ _ _ => 0xFFFF#16
  | .trap _ => 0xF0FF#16
  | .getc => 0xF0FF#16
  | .out => 0xF0FF#16
  | .puts => 0xF0FF#16
  | .inChar => 0xF0FF#16
  | .putsp => 0xF0FF#16
  | .halt => 0xF0FF#16
  | .rti _ => 0xFFFF#16
  | .res _ => 0xFFFF#16

end Sys2Proof
end

