-- ==== Sys2Proof/Machine/System.lean ====
section
/-! DEFINITION. TRAP, its six services, RTI and RES (43_system.md). A service completes inside the
TRAP's own cycle: it saves nothing, reads no vector table and leaves PC, R7 and COND alone
(R180, 60_exceptions.md R218). -/

namespace Sys2Proof.Machine

/-! ## The services, shared by TRAP and the services' own rows -/

/-- GETC's read (R182): R0 takes the character; with no answer yet the core waits inside GETC (R191).
The same operation finishes the wait. -/
def State.finishGetc (s : State) : State :=
  match s.hostRead with
  | none => { s with wait := some .getc }
  | some (v, s') => { s'.setReg 0 v with wait := none }

/-- IN after its prompt (R185): the character is echoed and R0 takes it; with no answer yet the core
waits inside IN (R191). The echo at end of stream is DESIGN CHOICE, unsafe: log 15. -/
def State.finishIn (s : State) : State :=
  match s.hostRead with
  | none => { s with wait := some .inChar }
  | some (v, s') => { (s'.emit [lowByte v]).setReg 0 v with wait := none }

/-- IN (R185): the prompt is written before the read. -/
def State.serviceIn (s : State) : State := (s.emit Config.inPrompt).finishIn

/-- OUT (R183): the low byte of R0. -/
def State.serviceOut (s : State) : State := s.emit [lowByte (s.reg 0)]

/-- HALT (R187): the notice, then Running State is cleared. -/
def State.serviceHalt (s : State) : State := (s.emit Config.haltNotice).stopRunning

/-- The Words before the first zero Word among the `left` Words from address `p` on. -/
def stringWords (m : Memory) : (left : Nat) → (p : Nat) → List Word
  | 0, _ => []
  | left + 1, p => if m.read p = 0#16 then [] else m.read p :: stringWords m left (p + 1)

/-- A zero Word stands among the `left` Words from address `p` on. -/
def stringEnds (m : Memory) : (left : Nat) → (p : Nat) → Bool
  | 0, _ => false
  | left + 1, p => if m.read p = 0#16 then true else stringEnds m left (p + 1)

/-- How many addresses there are from the start of R0's string to 0xFFFF, both included. -/
def State.stringRoom (s : State) : Nat := 65536 - (s.reg 0).toNat

/-- The Words of the string R0 points to, up to its zero Word or 0xFFFF (R184, R186). Read with no
keyboard poll (20_memory.md R56; DESIGN CHOICE, unsafe: log 11). -/
def State.stringAtR0 (s : State) : List Word := stringWords s.mem s.stringRoom (s.reg 0).toNat

/-- Write each Word's bytes, then raise `StringOverrun` if no zero Word was met up to 0xFFFF
(R184, R186; DESIGN CHOICE, safe: log 11). -/
def State.putString (s : State) (bytesOf : Word → List Byte) : State :=
  let written := s.emit (s.stringAtR0.flatMap bytesOf)
  if stringEnds s.mem s.stringRoom (s.reg 0).toNat then written
  else written.raise (.stringOverrun (s.reg 0))

/-- PUTS writes the low byte of each Word (R184; DESIGN CHOICE, unsafe: log 12). -/
def putsBytes (v : Word) : List Byte := [lowByte v]

/-- PUTSP writes the low byte, then the high byte if it is not zero (R186). -/
def putspBytes (v : Word) : List Byte :=
  if highByte v = 0#8 then [lowByte v] else [lowByte v, highByte v]

/-- PUTS (R184). -/
def State.servicePuts (s : State) : State := s.putString putsBytes

/-- PUTSP (R186). -/
def State.servicePutsp (s : State) : State := s.putString putspBytes

/-- The trap vector table (R181, R180): any other vector has no effect (R188).
The vectors but HALT's are PRESUMED, unsafe: log 13. -/
def State.trapService (s : State) (vector : BitVec 8) : State :=
  if vector = 0x20#8 then s.finishGetc
  else if vector = 0x21#8 then s.serviceOut
  else if vector = 0x22#8 then s.servicePuts
  else if vector = 0x23#8 then s.serviceIn
  else if vector = 0x24#8 then s.servicePutsp
  else if vector = 0x25#8 then s.serviceHalt
  else s

/-! ## The meanings -/

/-- TRAP (R180). -/
def execTrap (vector : BitVec 8) (s : State) : Host.Outcome State Fault Refusal :=
  .next (s.trapService vector)

/-- GETC (R182). -/
def execGetc (s : State) : Host.Outcome State Fault Refusal := .next s.finishGetc

/-- OUT (R183). -/
def execOut (s : State) : Host.Outcome State Fault Refusal := .next s.serviceOut

/-- PUTS (R184). -/
def execPuts (s : State) : Host.Outcome State Fault Refusal := .next s.servicePuts

/-- IN (R185). -/
def execInChar (s : State) : Host.Outcome State Fault Refusal := .next s.serviceIn

/-- PUTSP (R186). -/
def execPutsp (s : State) : Host.Outcome State Fault Refusal := .next s.servicePutsp

/-- HALT (R187). -/
def execHalt (s : State) : Host.Outcome State Fault Refusal := .next s.serviceHalt

/-- RTI (R189): the fatal fault, whose Word is the RTI Word itself. -/
def execRti (low : BitVec 12) (s : State) : Host.Outcome State Fault Refusal :=
  .next (s.raiseUnsupported (encode (.rti low)))

/-- RES (R190): as RTI. -/
def execRes (low : BitVec 12) (s : State) : Host.Outcome State Fault Refusal :=
  .next (s.raiseUnsupported (encode (.res low)))

end Sys2Proof.Machine
end

