-- ==== Sys2Proof/Machine/Dispatch.lean ====
section
/-! DEFINITION. One arm per constructor of `Instr`. -/

namespace Sys2Proof.Machine

def exec (i : Instr) (s : State) : Host.Outcome State Fault Refusal :=
  match i with
  | .addReg dst src1 src2 => Sys2Proof.Machine.execAddReg dst src1 src2 s
  | .addImm dst src1 imm5 => Sys2Proof.Machine.execAddImm dst src1 imm5 s
  | .andReg dst src1 src2 => Sys2Proof.Machine.execAndReg dst src1 src2 s
  | .andImm dst src1 imm5 => Sys2Proof.Machine.execAndImm dst src1 imm5 s
  | .not dst src => Sys2Proof.Machine.execNot dst src s
  | .br mask offset9 => Sys2Proof.Machine.execBr mask offset9 s
  | .jmp base => Sys2Proof.Machine.execJmp base s
  | .ret => Sys2Proof.Machine.execRet s
  | .jsr offset11 => Sys2Proof.Machine.execJsr offset11 s
  | .jsrr base => Sys2Proof.Machine.execJsrr base s
  | .ld dst offset9 => Sys2Proof.Machine.execLd dst offset9 s
  | .ldi dst offset9 => Sys2Proof.Machine.execLdi dst offset9 s
  | .lea dst offset9 => Sys2Proof.Machine.execLea dst offset9 s
  | .st src offset9 => Sys2Proof.Machine.execSt src offset9 s
  | .sti src offset9 => Sys2Proof.Machine.execSti src offset9 s
  | .ldr dst base offset6 => Sys2Proof.Machine.execLdr dst base offset6 s
  | .str src base offset6 => Sys2Proof.Machine.execStr src base offset6 s
  | .trap vector => Sys2Proof.Machine.execTrap vector s
  | .getc => Sys2Proof.Machine.execGetc s
  | .out => Sys2Proof.Machine.execOut s
  | .puts => Sys2Proof.Machine.execPuts s
  | .inChar => Sys2Proof.Machine.execInChar s
  | .putsp => Sys2Proof.Machine.execPutsp s
  | .halt => Sys2Proof.Machine.execHalt s
  | .rti low => Sys2Proof.Machine.execRti low s
  | .res low => Sys2Proof.Machine.execRes low s

end Sys2Proof.Machine
end

