-- ==== Sys2Proof/Machine/Cycle.lean ====
section
/-! DEFINITION. The execution cycle of 10_state.md R32, with the host's moves before it. -/

namespace Sys2Proof.Machine

/-- What one host event does: it extends the available input, or clears Running State and nothing else
(60_exceptions.md R214, R228). -/
def State.hostEvent (s : State) : HostEvent → State
  | .deliver x => { s with input := s.input ++ [x] }
  | .interrupt => s.stopRunning

/-- The host's events before this step, in order (log 20, log 21). -/
def State.hostTurn (s : State) : State :=
  match s.host with
  | [] => s
  | events :: rest => events.foldl State.hostEvent { s with host := rest }

/-- `w <- MemRead(PC, 1); PC <- PC + 1` (R32, R24): the fetched Word and the state after. -/
def State.fetch (s : State) : Word × State :=
  ((s.memRead s.pc).1, (s.memRead s.pc).2.setPc (s.pc + 1#16))

/-- One cycle (R32): Running State is checked at the top, then fetch, increment, decode, execute. -/
def cycle (s : State) : Host.Outcome State Fault Refusal :=
  if s.running then
    let fetched := { s with status := .running }.fetch
    exec (decode fetched.1) fetched.2
  else .next { s with status := .halted }

/-- The instruction that waits goes on: it finishes if the host has answered (43_system.md R191). No
Running check happens in the middle of an instruction (60_exceptions.md R215; log 16). -/
def State.resume (s : State) : WaitService → State
  | .getc => s.finishGetc
  | .inChar => s.finishIn

/-- The core's own move: go on waiting, or run one cycle. -/
def coreTurn (s : State) : Host.Outcome State Fault Refusal :=
  match s.wait with
  | some service => .next (s.resume service)
  | none => cycle s

/-- One step: the host's events, then the core's move. `Halted` and `Faulted` are terminal
(R32, 60_exceptions.md R226): a halted machine keeps its state, a faulted one reports its fault
(log 17, log 18). -/
def turn (s : State) : Host.Outcome State Fault Refusal :=
  match s.status with
  | .loaded => coreTurn s.hostTurn
  | .running => coreTurn s.hostTurn
  | .halted => .next s
  | .faulted f => .fault f

end Sys2Proof.Machine
end

