-- ==== Sys2Proof/Machine/Step.lean ====
section
/-! DEFINITION. The step, and the state whose next step runs a given Word. -/

namespace Sys2Proof.Machine

/-- One step of the machine: `turn` of Machine/Cycle.lean (10_state.md R32). -/
def step (s : State) : Host.Outcome State Fault Refusal := turn s

/-- `s` with the instruction in the low `nbits` bits of `w` stored at PC, where `step` fetches next.
It stands for the image load (70_reset_and_hazards.md R242; log 25). Only memory changes; the next step
runs the Word when the machine is about to fetch and PC is not 0xFE00 (log 28). -/
def State.withFetchWord (s : State) (nbits w : Nat) : State :=
  s.memWrite s.pc (BitVec.ofNat 16 (w % 2 ^ nbits))

end Sys2Proof.Machine
end

