-- ==== Sys2Proof/Machine/Boot.lean ====
section
/-! DEFINITION. The image loader's effect on memory and the boot sequence
(70_reset_and_hazards.md R240 to R245). The corners are DESIGN CHOICE, unsafe: log 25. -/

namespace Sys2Proof.Machine

/-- The loop of `Load` (R242): big-endian Words from address `a` on, stopping at the end of the stream,
at `LOAD_TOP` (no wrap), and at a single trailing byte. -/
def loadWords : List Byte → Nat → Memory → Memory
  | hi :: lo :: rest, a, m =>
    if a ≤ Config.loadTop then loadWords rest (a + 1) (m.write a (wordOfBytes hi lo)) else m
  | [_], _, m => m
  | [], _, m => m

/-- `Load(b)` (R242): the first two bytes are the origin; fewer than two is a failed load. -/
def loadImage (b : List Byte) (m : Memory) : Option Memory :=
  match b with
  | hi :: lo :: rest => some (loadWords rest (wordOfBytes hi lo).toNat m)
  | [_] => none
  | [] => none

/-- The images in the given order, later ones over earlier ones (R241, R244). -/
def loadImages : List (List Byte) → Memory → Option Memory
  | [], m => some m
  | b :: bs, m => (loadImage b m).bind (loadImages bs)

/-- The boot sequence (R241): reset, then every image; a failed load has no run (R245). -/
def State.boot (images : List (List Byte)) : Option State :=
  (loadImages images State.reset.mem).map fun m => { State.reset with mem := m }

end Sys2Proof.Machine
end

