-- ==== Sys2Proof/Safety.lean ====
section
/-! DEFINITION. The terms claims are stated in: the invariant of the machine, what a frame keeps, and
the tables of 10_state.md and 20_memory.md that say which instruction touches what. -/

namespace Sys2Proof.Machine

/-! ## The invariant -/

/-- COND holds exactly one of NEG, ZRO, POS (10_state.md R29). -/
abbrev State.CondLegal (s : State) : Prop := s.cond = condNeg ∨ s.cond = condZro ∨ s.cond = condPos

/-- Only a running machine waits inside GETC or IN (60_exceptions.md R226). -/
abbrev State.WaitLegal (s : State) : Prop := s.wait ≠ none → s.status = .running

/-- A halted machine has Running State cleared (10_state.md R32). -/
abbrev State.HaltLegal (s : State) : Prop := s.status = .halted → s.running = false

/-- What every step keeps. -/
structure State.Inv (s : State) : Prop where
  memWf : s.mem.Wf
  condLegal : s.CondLegal
  waitLegal : s.WaitLegal
  haltLegal : s.HaltLegal

/-- A safe run reaches no faulted state. -/
abbrev State.Safe (s : State) : Prop := ∀ f, s.status ≠ .faulted f

/-! ## Frames: what `t` keeps of `s` -/

/-- Every general register but those listed. -/
abbrev RegsKeptBut (changed : List Reg) (s t : State) : Prop := ∀ r, r ∉ changed → t.reg r = s.reg r

/-- Every Word of memory but those at the listed addresses. -/
abbrev MemKeptBut (changed : List Word) (s t : State) : Prop :=
  ∀ a, a ∉ changed → t.arrayRead a = s.arrayRead a

/-- Running State, the run status and the wait state. -/
abbrev ControlKept (s t : State) : Prop := t.running = s.running ∧ t.status = s.status ∧ t.wait = s.wait

/-- The host's input, output and schedule. -/
abbrev HostKept (s t : State) : Prop := t.input = s.input ∧ t.output = s.output ∧ t.host = s.host

/-- Everything but the listed registers and COND. -/
abbrev KeptButResult (changed : List Reg) (s t : State) : Prop :=
  RegsKeptBut changed s t ∧ MemKeptBut [] s t ∧ t.pc = s.pc ∧ ControlKept s t ∧ HostKept s t

/-- Everything but memory and the input stream. -/
abbrev KeptButMemory (s t : State) : Prop :=
  RegsKeptBut [] s t ∧ t.pc = s.pc ∧ t.cond = s.cond ∧ ControlKept s t ∧
    t.output = s.output ∧ t.host = s.host

/-- What a `MemRead` of `a` that gives `v` does to memory and the input stream (20_memory.md R52, R53):
away from 0xFE00 it is a plain read; at 0xFE00 it polls, and gives 0x0000 with nothing available, else
the ready Word, with the item consumed and its Word at 0xFE02. -/
structure MemReadEffect (a v : Word) (s t : State) : Prop where
  plain : a ≠ Config.kbsr → v = s.arrayRead a ∧ MemKeptBut [] s t ∧ t.input = s.input
  nothing : a = Config.kbsr → s.input = [] →
    v = 0x0000#16 ∧ t.arrayRead Config.kbsr = 0x0000#16 ∧ MemKeptBut [Config.kbsr] s t ∧ t.input = []
  character : a = Config.kbsr → ∀ c rest, s.input = .char c :: rest →
    v = Config.kbsrReady ∧ t.arrayRead Config.kbsr = Config.kbsrReady ∧
      (t.arrayRead Config.kbdr).toNat = c.toNat ∧ MemKeptBut [Config.kbsr, Config.kbdr] s t ∧
      t.input = rest
  endOfStream : a = Config.kbsr → ∀ rest, s.input = .eof :: rest →
    v = Config.kbsrReady ∧ t.arrayRead Config.kbsr = Config.kbsrReady ∧
      t.arrayRead Config.kbdr = Config.eofWord ∧ MemKeptBut [Config.kbsr, Config.kbdr] s t ∧
      t.input = rest

end Sys2Proof.Machine

/-! ## Which instruction touches what -/

namespace Sys2Proof

open Sys2Proof.Machine

/-- The destination of a flag-defining instruction: ADD, AND, NOT, LD, LDI, LDR, LEA and no other
(10_state.md R28). -/
def Instr.flagDst : Instr → Option Reg
  | .addReg dst _ _ => some dst
  | .addImm dst _ _ => some dst
  | .andReg dst _ _ => some dst
  | .andImm dst _ _ => some dst
  | .not dst _ => some dst
  | .ld dst _ => some dst
  | .ldi dst _ => some dst
  | .ldr dst _ _ => some dst
  | .lea dst _ => some dst
  | .br _ _ | .jmp _ | .ret | .jsr _ | .jsrr _ | .st _ _ | .sti _ _ | .str _ _ _ => none
  | .trap _ | .getc | .out | .puts | .inChar | .putsp | .halt | .rti _ | .res _ => none

/-- The general registers an instruction may write: the table of 10_state.md R22. -/
def Instr.writtenRegs : Instr → List Reg
  | .addReg dst _ _ => [dst]
  | .addImm dst _ _ => [dst]
  | .andReg dst _ _ => [dst]
  | .andImm dst _ _ => [dst]
  | .not dst _ => [dst]
  | .ld dst _ => [dst]
  | .ldi dst _ => [dst]
  | .ldr dst _ _ => [dst]
  | .lea dst _ => [dst]
  | .jsr _ | .jsrr _ => [7]
  | .getc | .inChar => [0]
  | .trap vector => if vector = 0x20#8 ∨ vector = 0x23#8 then [0] else []
  | .br _ _ | .jmp _ | .ret | .st _ _ | .sti _ _ | .str _ _ _ => []
  | .out | .puts | .putsp | .halt | .rti _ | .res _ => []

/-- The instructions that may change PC after the increment (10_state.md R26). -/
def Instr.transfersControl : Instr → Bool
  | .br _ _ | .jmp _ | .ret | .jsr _ | .jsrr _ => true
  | .addReg _ _ _ | .addImm _ _ _ | .andReg _ _ _ | .andImm _ _ _ | .not _ _ => false
  | .ld _ _ | .ldi _ _ | .ldr _ _ _ | .lea _ _ | .st _ _ | .sti _ _ | .str _ _ _ => false
  | .trap _ | .getc | .out | .puts | .inChar | .putsp | .halt | .rti _ | .res _ => false

/-- The addresses an instruction reads with `MemRead` after its fetch, in order (20_memory.md R57). -/
def Instr.memReads : Instr → State → List Word
  | .ld _ offset9, s => [s.pcRelative offset9]
  | .ldi _ offset9, s => [s.pcRelative offset9, (s.indirect offset9).1]
  | .ldr _ base offset6, s => [s.baseOffset base offset6]
  | .sti _ offset9, s => [s.pcRelative offset9]
  | .addReg _ _ _, _ | .addImm _ _ _, _ | .andReg _ _ _, _ | .andImm _ _ _, _ | .not _ _, _ => []
  | .br _ _, _ | .jmp _, _ | .ret, _ | .jsr _, _ | .jsrr _, _ | .lea _ _, _ => []
  | .st _ _, _ | .str _ _ _, _ => []
  | .trap _, _ | .getc, _ | .out, _ | .puts, _ | .inChar, _ | .putsp, _ | .halt, _ => []
  | .rti _, _ | .res _, _ => []

/-- The address an instruction stores to, with the meaning's own address operation (20_memory.md R57). -/
def Instr.storeAddr : Instr → State → Option Word
  | .st _ offset9, s => some (s.pcRelative offset9)
  | .sti _ offset9, s => some (s.indirect offset9).1
  | .str _ base offset6, s => some (s.baseOffset base offset6)
  | .addReg _ _ _, _ | .addImm _ _ _, _ | .andReg _ _ _, _ | .andImm _ _ _, _ | .not _ _, _ => none
  | .br _ _, _ | .jmp _, _ | .ret, _ | .jsr _, _ | .jsrr _, _ => none
  | .ld _ _, _ | .ldi _ _, _ | .ldr _ _ _, _ | .lea _ _, _ => none
  | .trap _, _ | .getc, _ | .out, _ | .puts, _ | .inChar, _ | .putsp, _ | .halt, _ => none
  | .rti _, _ | .res _, _ => none

/-- The instructions that may write host output (60_exceptions.md R223). -/
def Instr.writesOutput : Instr → Bool
  | .trap vector =>
    vector = 0x21#8 ∨ vector = 0x22#8 ∨ vector = 0x23#8 ∨ vector = 0x24#8 ∨ vector = 0x25#8
  | .out | .puts | .inChar | .putsp | .halt => true
  | .addReg _ _ _ | .addImm _ _ _ | .andReg _ _ _ | .andImm _ _ _ | .not _ _ => false
  | .br _ _ | .jmp _ | .ret | .jsr _ | .jsrr _ => false
  | .ld _ _ | .ldi _ _ | .ldr _ _ _ | .lea _ _ | .st _ _ | .sti _ _ | .str _ _ _ => false
  | .getc | .rti _ | .res _ => false

/-- The instructions that read the host input with `HostRead` (43_system.md R182, R185). -/
def Instr.readsHost : Instr → Bool
  | .trap vector => vector = 0x20#8 ∨ vector = 0x23#8
  | .getc | .inChar => true
  | .addReg _ _ _ | .addImm _ _ _ | .andReg _ _ _ | .andImm _ _ _ | .not _ _ => false
  | .br _ _ | .jmp _ | .ret | .jsr _ | .jsrr _ => false
  | .ld _ _ | .ldi _ _ | .ldr _ _ _ | .lea _ _ | .st _ _ | .sti _ _ | .str _ _ _ => false
  | .out | .puts | .putsp | .halt | .rti _ | .res _ => false

/-- The instruction is one of those that can end a run in `Faulted` (60_exceptions.md R213). -/
def Instr.mayFault : Instr → Bool
  | .trap vector => vector = 0x22#8 ∨ vector = 0x24#8
  | .puts | .putsp | .rti _ | .res _ => true
  | .addReg _ _ _ | .addImm _ _ _ | .andReg _ _ _ | .andImm _ _ _ | .not _ _ => false
  | .br _ _ | .jmp _ | .ret | .jsr _ | .jsrr _ => false
  | .ld _ _ | .ldi _ _ | .ldr _ _ _ | .lea _ _ | .st _ _ | .sti _ _ | .str _ _ _ => false
  | .getc | .out | .inChar | .halt => false

end Sys2Proof

namespace Sys2Proof.Machine

/-- The Words of the string at R0, the first `n` of them: `Memory[x[0]]`, `Memory[x[0] + 1]` … -/
def State.wordsAtR0 (s : State) (n : Nat) : List Word :=
  (List.range n).map fun k => s.arrayRead (s.reg 0 + BitVec.ofNat 16 k)

/-- The machine is about to run a cycle: loaded or running, no instruction waiting, and Running State
still set after the host's moves of this step. -/
abbrev State.Ready (s : State) : Prop :=
  (s.status = .loaded ∨ s.status = .running) ∧ s.wait = none ∧ s.hostTurn.running = true

end Sys2Proof.Machine
end

