-- ==== Sys2Proof/Certificates/Slice0/Obligations.lean ====
section
/-! DEFINITION. The statements for the provers. Each docstring names the rule of spec/ it formalises, or
says which log entry (notes/assumptions) it rests on. -/

open Sys2Proof Sys2Proof.Machine

/-! ## Encoding -/

/-- Words of 30_encoding.md written out bit by bit, at least one per family, and what they stand for. The
opcode numbers but ADD's and TRAP's and the vectors but HALT's are PRESUMED: log 5, log 13. That the ADD
Word with ones in its ignored bits is that ADD is log 7; RET and the services as constructors are log 26.
-/
def Obligations.WrittenOutWordsDecode : Prop :=
  decode 0b0001_000_001_1_00001#16 = .addImm 0 1 1#5 ∧
  decode 0b0001_000_001_0_11_001#16 = .addReg 0 1 1 ∧
  decode 0b0101_000_001_0_00_010#16 = .andReg 0 1 2 ∧
  decode 0b1001_110_101_111111#16 = .not 6 5 ∧
  decode 0b0000_001_111111101#16 = .br 0b001#3 0x1FD#9 ∧
  decode 0b1100_000_111_000000#16 = .ret ∧
  decode 0b1100_000_011_000000#16 = .jmp 3 ∧
  decode 0b0100_1_00000000100#16 = .jsr 4#11 ∧
  decode 0b0100_0_00_010_000000#16 = .jsrr 2 ∧
  decode 0b0110_100_001_000000#16 = .ldr 4 1 0#6 ∧
  decode 0b1011_110_000001001#16 = .sti 6 9#9 ∧
  decode 0b1111_0000_00100101#16 = .halt ∧
  decode 0b1000_000000000000#16 = .rti 0#12 ∧
  decode 0b1101_000100100011#16 = .res 0x123#12

/-- Decoding the Word of a well-formed instruction gives that instruction back, for every constructor
and every operand (30_encoding.md R82, R86). The opcode numbers are PRESUMED: log 5; so are five vectors:
log 13. Which terms are well-formed is log 26. -/
def Obligations.DecodeOfEncodeIsTheInstruction : Prop :=
  ∀ i : Instr, i.wellFormed = true → decode (encode i) = i

/-- Encoding what a Word decodes to gives the Word back in every bit the instruction examines
(30_encoding.md R82, R83). Which bits are examined is log 7; the opcode numbers are PRESUMED: log 5, and
five vectors: log 13. -/
def Obligations.EncodeOfDecodeKeepsExaminedBits : Prop :=
  ∀ w : Word, encode (decode w) &&& (decode w).examined = w &&& (decode w).examined

/-- Two Words that agree in the bits the instruction examines decode to the same instruction, whatever
the bits listed in 30_encoding.md R83 hold (log 7). Opcodes 8 and 13 are RTI and RES (30_encoding.md R81,
R82; the two numbers are PRESUMED: log 5) whatever their low twelve bits are; those bits are kept for the
fault's record only. -/
def Obligations.IgnoredBitsDoNotChangeTheInstruction : Prop :=
  (∀ w v : Word, v &&& (decode w).examined = w &&& (decode w).examined → decode v = decode w) ∧
  (∀ w : Word, (w.extractLsb' 12 4).toNat = 8 → decode w = .rti (w.extractLsb' 0 12)) ∧
  (∀ w : Word, (w.extractLsb' 12 4).toNat = 13 → decode w = .res (w.extractLsb' 0 12))

/-- 30_encoding.md R86 (an inference of the spec's own): every Word decodes, to a well-formed instruction
whose row is in the table and fits the Word, and exactly one row without alias_of fits: that row, or the
row it is an alias of. The opcode numbers are PRESUMED: log 5. The vectors but the one of HALT are
PRESUMED: log 13. Alias rows as constructors are log 26. -/
def Obligations.EveryWordDecodesToItsOneRow : Prop :=
  ∀ w : Word, (decode w).wellFormed = true ∧ (decode w).row ∈ opcodeTable ∧
    (decode w).row.fits w = true ∧
    ∀ r ∈ opcodeTable, r.aliasOf = none →
      (r.fits w = true ↔
        (r = (decode w).row ∨ (decode w).row.aliasOf = some r.mnemonic))

/-- 30_encoding.md R87: executing the instruction a Word decodes to raises `Unsupported` exactly when the
Word's opcode is RTI's or RES's, whatever its other bits. The two numbers are PRESUMED: log 5. That the
fault is a next state with status `Faulted` is log 17. That the low bits do not matter is log 7. -/
def Obligations.UnsupportedExactlyForTwoOpcodes : Prop :=
  ∀ (w : Word) (s t : State), s.Safe → exec (decode w) s = .next t →
    ((∃ addr word, t.status = .faulted (.unsupported addr word)) ↔
      (w.extractLsb' 12 4 = 0b1000#4 ∨ w.extractLsb' 12 4 = 0b1101#4))

/-! ## Words, flags and the operate instructions -/

/-- 00_scope.md R9: `sext_N` by its formula, with its value as a signed number and its idempotence
(95_test_vectors.md L1.5), and `zext_N`, for every width the rule gives. -/
def Obligations.ExtensionFollowsItsFormula : Prop :=
  ∀ (n : Nat) (f : BitVec n), 1 ≤ n → n ≤ 16 →
    sext f = (if f.getLsbD (n - 1) then f.setWidth 16 ||| (0xFFFF#16 <<< n) else f.setWidth 16) ∧
    (sext f).toInt = f.toInt ∧ sext ((sext f).setWidth n : BitVec n) = sext f ∧
    (zext f).toNat = f.toNat

/-- 10_state.md R28 with the update of R27: the flag-defining instructions, and no other, write COND,
each from the Word its destination then holds. That the others keep COND is log 23. -/
def Obligations.CondWrittenByExactlyTheFlagDefining : Prop :=
  ∀ (i : Instr) (s t : State), exec i s = .next t →
    (∀ dst, i.flagDst = some dst →
      (t.cond = condNeg ↔ (t.reg dst).getLsbD 15 = true) ∧
      (t.cond = condZro ↔ t.reg dst = 0#16) ∧
      (t.cond = condPos ↔ ((t.reg dst).getLsbD 15 = false ∧ t.reg dst ≠ 0#16))) ∧
    (i.flagDst = none → t.cond = s.cond)

/-- 10_state.md R28 "COND is read only by BR": every other instruction does the same whatever COND holds,
but for COND itself. That the instructions which do not define flags keep COND is log 23. -/
def Obligations.CondReadOnlyByBranch : Prop :=
  ∀ (i : Instr) (s t : State) (c : BitVec 3), (∀ mask offset9, i ≠ .br mask offset9) →
    exec i s = .next t →
    ∃ u, exec i { s with cond := c } = .next u ∧ { u with cond := t.cond } = t ∧
      (i.flagDst ≠ none → u = t) ∧ (i.flagDst = none → u.cond = c)

/-- 40_alu.md R111 and R115, and the effect of R110: ADD completes in every state in both forms; the
result is at once the unsigned and the signed sum modulo 2^16, COND follows it, and nothing else changes.
The last clause is R111's encoding (the opcode 0001 is the source's own). -/
def Obligations.AddWritesTheWrappedSum : Prop :=
  (∀ (dst src1 src2 : Reg) (s : State), ∃ t, exec (.addReg dst src1 src2) s = .next t ∧
    (t.reg dst).toNat = ((s.reg src1).toNat + (s.reg src2).toNat) % 65536 ∧
    (t.reg dst).toInt = ((s.reg src1).toInt + (s.reg src2).toInt).bmod 65536 ∧
    t.cond = condCode (t.reg dst) ∧ KeptButResult [dst] s t) ∧
  (∀ (dst src1 : Reg) (imm5 : BitVec 5) (s : State), ∃ t, exec (.addImm dst src1 imm5) s = .next t ∧
    ((t.reg dst).toNat : Int) = ((s.reg src1).toNat + imm5.toInt) % 65536 ∧
    (t.reg dst).toInt = ((s.reg src1).toInt + imm5.toInt).bmod 65536 ∧
    t.cond = condCode (t.reg dst) ∧ KeptButResult [dst] s t) ∧
  ∀ (dst src1 : Reg) (imm5 : BitVec 5),
    decode (0b0001#4 ++ BitVec.ofNat 3 dst ++ BitVec.ofNat 3 src1 ++ 1#1 ++ imm5) = .addImm dst src1 imm5

/-- 40_alu.md R112, R113: AND completes in every state, bit by bit, COND from the result, and nothing
else changed; bits 15..5 of the immediate are its sign. -/
def Obligations.AndWritesTheBitwiseAnd : Prop :=
  (∀ (dst src1 src2 : Reg) (s : State), ∃ t, exec (.andReg dst src1 src2) s = .next t ∧
    (∀ k < 16, (t.reg dst).getLsbD k = ((s.reg src1).getLsbD k && (s.reg src2).getLsbD k)) ∧
    t.cond = condCode (t.reg dst) ∧ KeptButResult [dst] s t) ∧
  (∀ (dst src1 : Reg) (imm5 : BitVec 5) (s : State), ∃ t, exec (.andImm dst src1 imm5) s = .next t ∧
    (∀ k < 16, (t.reg dst).getLsbD k = ((s.reg src1).getLsbD k && imm5.getLsbD (min k 4))) ∧
    t.cond = condCode (t.reg dst) ∧ KeptButResult [dst] s t)

/-- 40_alu.md R114: NOT completes in every state, with every bit complemented, COND from the result, and
nothing else changed. -/
def Obligations.NotWritesTheComplement : Prop :=
  ∀ (dst src : Reg) (s : State), ∃ t, exec (.not dst src) s = .next t ∧
    (∀ k < 16, (t.reg dst).getLsbD k = !(s.reg src).getLsbD k) ∧
    t.cond = condCode (t.reg dst) ∧ KeptButResult [dst] s t

/-! ## Control transfer -/

/-- 41_control.md R130: BR completes in every state; it branches when the mask meets COND, to PC plus the
signed offset, and changes nothing but PC. That COND stays is log 23. -/
def Obligations.BrBranchesWhenTheMaskMeetsCond : Prop :=
  ∀ (mask : BitVec 3) (offset9 : BitVec 9) (s : State),
    exec (.br mask offset9) s =
      .next (if mask &&& s.cond ≠ 0#3 then { s with pc := s.pc + BitVec.ofInt 16 offset9.toInt } else s)

/-- 41_control.md R130 with 10_state.md R29: mask 000 never branches; with a legal COND mask 111 always
does, and n, z, p test NEG, ZRO, POS. Which bit tests which is PRESUMED: log 6. That COND stays is log 23.
-/
def Obligations.BrMaskBitsTestTheirFlags : Prop :=
  ∀ (n z p : Bool) (offset9 : BitVec 9) (s : State), s.CondLegal →
    exec (.br (BitVec.ofBool n ++ BitVec.ofBool z ++ BitVec.ofBool p) offset9) s =
      .next (if (n ∧ s.cond = condNeg) ∨ (z ∧ s.cond = condZro) ∨ (p ∧ s.cond = condPos)
        then s.setPc (s.pcRelative offset9) else s) ∧
    exec (.br 0b000#3 offset9) s = .next s ∧
    exec (.br 0b111#3 offset9) s = .next (s.setPc (s.pcRelative offset9))

/-- 41_control.md R131, R132: JMP and RET complete in every state; PC takes the register, and nothing else
changes. That COND stays is log 23. RET as a constructor beside JMP is log 26. -/
def Obligations.JmpAndRetLoadPc : Prop :=
  (∀ (base : Reg) (s : State), exec (.jmp base) s = .next { s with pc := s.reg base }) ∧
  ∀ s : State, exec .ret s = .next { s with pc := s.reg 7 } ∧ exec .ret s = exec (.jmp 7) s

/-- 41_control.md R133: JSR completes in every state; R7 takes the return address, PC the target computed
from the PC before, and nothing else changes. That COND stays is log 23. -/
def Obligations.JsrLinksAndJumps : Prop :=
  ∀ (offset11 : BitVec 11) (s : State), ∃ t, exec (.jsr offset11) s = .next t ∧
    t.reg 7 = s.pc ∧ ((t.pc.toNat : Int) = (s.pc.toNat + offset11.toInt) % 65536) ∧
    RegsKeptBut [7] s t ∧ t.cond = s.cond ∧ MemKeptBut [] s t ∧ ControlKept s t ∧ HostKept s t

/-- 41_control.md R134: JSRR completes in every state; R7 takes the return address, PC the base register;
with base 7 the target is the return address just written. That order is log 22. That COND stays is log
23. -/
def Obligations.JsrrLinksBeforeItReadsTheBase : Prop :=
  ∀ (base : Reg) (s : State), ∃ t, exec (.jsrr base) s = .next t ∧
    t.reg 7 = s.pc ∧ t.pc = (if base = 7 then s.pc else s.reg base) ∧
    RegsKeptBut [7] s t ∧ t.cond = s.cond ∧ MemKeptBut [] s t ∧ ControlKept s t ∧ HostKept s t

/-! ## Loads, stores and the keyboard -/

/-- 20_memory.md R52, R53, R54: `MemRead` polls at 0xFE00 only, with the effect of R53 there, and changes
no other part of the state anywhere. The ready Word, the zero-extension and `EOF_WORD` are log 8, log 9,
log 10. That a read of 0xFE02 is plain (R54) is log 29, end of stream as an item log 30. -/
def Obligations.MemReadPollsOnlyTheStatusAddress : Prop :=
  ∀ (s : State) (a : Word),
    MemReadEffect a (s.memRead a).1 s (s.memRead a).2 ∧ KeptButMemory s (s.memRead a).2

/-- 42_load_store.md R150, R152: LD and LDR complete in every state; the destination takes the Word
`MemRead` of the effective address gives (its poll included), COND follows it, and nothing else changes.
The poll's values are log 8, log 9, log 10. That a read of 0xFE02 is plain is log 29, end of stream as an
item log 30. -/
def Obligations.LdAndLdrLoadTheirAddress : Prop :=
  (∀ (dst : Reg) (offset9 : BitVec 9) (s : State), ∃ t, exec (.ld dst offset9) s = .next t ∧
    MemReadEffect (s.pc + BitVec.ofInt 16 offset9.toInt) (t.reg dst) s t ∧
    t.cond = condCode (t.reg dst) ∧ RegsKeptBut [dst] s t ∧ t.pc = s.pc ∧ ControlKept s t ∧
    t.output = s.output ∧ t.host = s.host) ∧
  (∀ (dst base : Reg) (offset6 : BitVec 6) (s : State), ∃ t, exec (.ldr dst base offset6) s = .next t ∧
    MemReadEffect (s.reg base + BitVec.ofInt 16 offset6.toInt) (t.reg dst) s t ∧
    t.cond = condCode (t.reg dst) ∧ RegsKeptBut [dst] s t ∧ t.pc = s.pc ∧ ControlKept s t ∧
    t.output = s.output ∧ t.host = s.host)

/-- 42_load_store.md R151: LDI completes in every state; it reads the pointer, then reads at the pointer
in the state the first read leaves. The poll's values are log 8, log 9, log 10. That a read of 0xFE02 is
plain is log 29, end of stream as an item log 30. -/
def Obligations.LdiReadsThroughItsPointer : Prop :=
  ∀ (dst : Reg) (offset9 : BitVec 9) (s : State), ∃ t, exec (.ldi dst offset9) s = .next t ∧
    MemReadEffect (s.memRead (s.pc + BitVec.ofInt 16 offset9.toInt)).1 (t.reg dst)
      (s.memRead (s.pc + BitVec.ofInt 16 offset9.toInt)).2 t ∧
    t.cond = condCode (t.reg dst) ∧ RegsKeptBut [dst] s t ∧ t.pc = s.pc ∧ ControlKept s t ∧
    t.output = s.output ∧ t.host = s.host

/-- 42_load_store.md R153: LEA completes in every state; the destination takes the address, COND follows
it, memory is not read (so no poll), and nothing else changes. -/
def Obligations.LeaWritesTheAddress : Prop :=
  ∀ (dst : Reg) (offset9 : BitVec 9) (s : State), ∃ t, exec (.lea dst offset9) s = .next t ∧
    ((t.reg dst).toNat : Int) = (s.pc.toNat + offset9.toInt) % 65536 ∧
    t.cond = condCode (t.reg dst) ∧ KeptButResult [dst] s t

/-- 42_load_store.md R154, R156, 20_memory.md R55: ST and STR complete in every state; the Word at the
effective address becomes the source register, at every address, and nothing else changes. That stores to
0xFE00 and 0xFE02 are plain is log 29. That COND stays is log 23. -/
def Obligations.StAndStrStoreOneWord : Prop :=
  (∀ (src : Reg) (offset9 : BitVec 9) (s : State), ∃ t, exec (.st src offset9) s = .next t ∧
    t.arrayRead (s.pcRelative offset9) = s.reg src ∧ MemKeptBut [s.pcRelative offset9] s t ∧
    KeptButMemory s t ∧ t.input = s.input) ∧
  (∀ (src base : Reg) (offset6 : BitVec 6) (s : State), ∃ t, exec (.str src base offset6) s = .next t ∧
    t.arrayRead (s.baseOffset base offset6) = s.reg src ∧ MemKeptBut [s.baseOffset base offset6] s t ∧
    KeptButMemory s t ∧ t.input = s.input) ∧
  (∀ (offset9 : BitVec 9) (s : State),
    ((s.pcRelative offset9).toNat : Int) = (s.pc.toNat + offset9.toInt) % 65536) ∧
  ∀ (base : Reg) (offset6 : BitVec 6) (s : State),
    ((s.baseOffset base offset6).toNat : Int) = ((s.reg base).toNat + offset6.toInt) % 65536

/-- 42_load_store.md R155: STI completes in every state; it reads the pointer, then stores at the pointer
in the state that read leaves, and nothing else changes. The values of a poll by the pointer read are log
8, log 9, log 10; that the store is plain at 0xFE00 and 0xFE02 is log 29. End of stream as an item is log
30. That COND stays is log 23. -/
def Obligations.StiStoresThroughItsPointer : Prop :=
  ∀ (src : Reg) (offset9 : BitVec 9) (s : State), ∃ t, exec (.sti src offset9) s = .next t ∧
    t.arrayRead (s.memRead (s.pcRelative offset9)).1 = s.reg src ∧
    MemKeptBut [(s.memRead (s.pcRelative offset9)).1] (s.memRead (s.pcRelative offset9)).2 t ∧
    t.input = (s.memRead (s.pcRelative offset9)).2.input ∧ KeptButMemory s t

/-- 20_memory.md R55: what a store left at 0xFE00 is never read back through `MemRead`: the next read of
0xFE00 gives what it would have given without the store, and leaves the same Words everywhere. The plain
store is log 29, the poll's storing the status log 8. -/
def Obligations.StoreToStatusIsOverwrittenByItsRead : Prop :=
  ∀ (s : State) (v : Word),
    ((s.memWrite Config.kbsr v).memRead Config.kbsr).1 = (s.memRead Config.kbsr).1 ∧
    (∀ a, ((s.memWrite Config.kbsr v).memRead Config.kbsr).2.arrayRead a =
      (s.memRead Config.kbsr).2.arrayRead a) ∧
    ((s.memWrite Config.kbsr v).memRead Config.kbsr).2.input = (s.memRead Config.kbsr).2.input

/-- 20_memory.md R61 (an inference of the spec's own): with one character available, two reads of 0xFE00
give the ready Word and then 0x0000, and 0xFE02 keeps the character. Log 8, log 9. That a read of 0xFE02
is plain is log 29. -/
def Obligations.SecondStatusReadFindsNothing : Prop :=
  ∀ (s : State) (c : Byte), s.input = [.char c] →
    (s.memRead Config.kbsr).1 = Config.kbsrReady ∧
    ((s.memRead Config.kbsr).2.memRead Config.kbsr).1 = 0x0000#16 ∧
    (((s.memRead Config.kbsr).2.memRead Config.kbsr).2.memRead Config.kbdr).1.toNat = c.toNat

/-- 20_memory.md R57 (an inference of the spec's own): a Word of memory changes only at the address the
instruction stores to, or at 0xFE00 and 0xFE02 when one of its reads is of 0xFE00. That the poll stores at
0xFE00 is log 8, and that PUTS and PUTSP do not poll is log 11. That stores to 0xFE00 and 0xFE02 and reads
of 0xFE02 are plain is log 29. -/
def Obligations.MemoryChangesOnlyByStoreOrPoll : Prop :=
  ∀ (i : Instr) (s t : State), exec i s = .next t → ∀ a : Word, i.storeAddr s ≠ some a →
    (Config.kbsr ∈ i.memReads s → a ≠ Config.kbsr ∧ a ≠ Config.kbdr) →
    t.arrayRead a = s.arrayRead a

/-- The memory form is canonical: two memories in that form that read alike at every address are equal
data. The form is the model's choice: log 1. -/
def Obligations.MemoriesThatReadAlikeAreEqual : Prop :=
  ∀ m n : Memory, m.Wf → n.Wf → (∀ a, a < 65536 → m.read a = n.read a) → m = n

/-! ## TRAP, its services, RTI and RES -/

/-- 43_system.md R182: with an answer available GETC completes; R0 takes the character zero-extended or
`EOF_WORD`, the item is consumed, nothing is echoed, COND and the rest stay. Log 9, log 10. End of stream
as an item is log 30, the form of the wait log 19. That COND stays is log 23. -/
def Obligations.GetcReadsOneCharacter : Prop :=
  ∀ (s : State) (x : HostChar) (rest : List HostChar), s.input = x :: rest →
    ∃ t, exec .getc s = .next t ∧ (∀ c, x = .char c → (t.reg 0).toNat = c.toNat) ∧
      (x = .eof → t.reg 0 = Config.eofWord) ∧ RegsKeptBut [0] s t ∧ t.cond = s.cond ∧ t.pc = s.pc ∧
      MemKeptBut [] s t ∧ t.running = s.running ∧ t.status = s.status ∧ t.wait = none ∧
      t.input = rest ∧ t.output = s.output ∧ t.host = s.host

/-- 43_system.md R185: with an answer available IN completes; it writes the prompt, then the low byte of
the Word it puts into R0; COND and the rest stay. The echo at end of stream is log 15. The Word of the
item is log 9, log 10; the prompt is OPEN: log 14; end of stream as an item is log 30, the form of the
wait log 19. That COND stays is log 23. -/
def Obligations.InPromptsReadsAndEchoes : Prop :=
  ∀ (s : State) (x : HostChar) (rest : List HostChar), s.input = x :: rest →
    ∃ t, exec .inChar s = .next t ∧ (∀ c, x = .char c → (t.reg 0).toNat = c.toNat) ∧
      (x = .eof → t.reg 0 = Config.eofWord) ∧
      t.output = s.output ++ Config.inPrompt ++ [(t.reg 0).setWidth 8] ∧
      RegsKeptBut [0] s t ∧ t.cond = s.cond ∧ t.pc = s.pc ∧ MemKeptBut [] s t ∧
      t.running = s.running ∧ t.status = s.status ∧ t.wait = none ∧ t.input = rest ∧ t.host = s.host

/-- 43_system.md R191, 60_exceptions.md R226: with no answer yet GETC and IN wait, IN with its prompt
written (R185; the prompt is OPEN, log 14); how the wait is held is log 19. That COND stays is log 23. -/
def Obligations.GetcAndInWaitWithoutAnAnswer : Prop :=
  ∀ s : State, s.input = [] →
    exec .getc s = .next { s with wait := some .getc } ∧
    exec .inChar s = .next { s with output := s.output ++ Config.inPrompt, wait := some .inChar }

/-- 43_system.md R183: OUT completes in every state; it writes the low byte of R0 and changes nothing
else. That COND stays is log 23. -/
def Obligations.OutWritesTheLowByte : Prop :=
  ∀ s : State, ∃ b : Byte, b.toNat = (s.reg 0).toNat % 256 ∧
    exec .out s = .next { s with output := s.output ++ [b] }

/-- 43_system.md R184: a string of `n` Words that a zero Word ends at or before 0xFFFF: PUTS completes,
writes the low byte of each, and changes nothing else. The low byte and the plain reads are log 12, log
11. That COND stays is log 23. -/
def Obligations.PutsWritesTheString : Prop :=
  ∀ (s : State) (n : Nat), (s.reg 0).toNat + n < 65536 → (∀ v ∈ s.wordsAtR0 n, v ≠ 0#16) →
    s.arrayRead (s.reg 0 + BitVec.ofNat 16 n) = 0#16 →
    exec .puts s =
      .next { s with output := s.output ++ (s.wordsAtR0 n).map fun (v : Word) => v.setWidth 8 }

/-- 43_system.md R186: as PUTS, with the low byte of each Word and then its high byte when that is not
zero. The plain reads are log 11. That COND stays is log 23. -/
def Obligations.PutspWritesThePackedString : Prop :=
  ∀ (s : State) (n : Nat), (s.reg 0).toNat + n < 65536 → (∀ v ∈ s.wordsAtR0 n, v ≠ 0#16) →
    s.arrayRead (s.reg 0 + BitVec.ofNat 16 n) = 0#16 →
    exec .putsp s =
      .next { s with output := s.output ++ (s.wordsAtR0 n).flatMap fun (v : Word) =>
        if (v >>> 8) = 0#16 then [v.setWidth 8] else [v.setWidth 8, (v >>> 8).setWidth 8] }

/-- 43_system.md R184, R186: a string with no zero Word up to 0xFFFF writes all its bytes and then raises
`StringOverrun`. The fault is the spec's model-only one and the reads are plain: log 11. That the low byte
of each PUTS Word is written is log 12; that the fault is a next state with status `Faulted` is log 17.
That COND stays is log 23. -/
def Obligations.StringPastTheTopOverruns : Prop :=
  ∀ s : State, (∀ a : Word, s.reg 0 ≤ a → s.arrayRead a ≠ 0#16) →
    exec .puts s = .next { s with
      output := s.output ++
        (s.wordsAtR0 (65536 - (s.reg 0).toNat)).map (fun (v : Word) => v.setWidth 8),
      status := .faulted (.stringOverrun (s.reg 0)) } ∧
    exec .putsp s = .next { s with
      output := s.output ++ (s.wordsAtR0 (65536 - (s.reg 0).toNat)).flatMap (fun (v : Word) =>
        if (v >>> 8) = 0#16 then [v.setWidth 8] else [v.setWidth 8, (v >>> 8).setWidth 8]),
      status := .faulted (.stringOverrun (s.reg 0)) }

/-- 43_system.md R187: HALT completes in every state; it writes the notice, clears Running State and
changes nothing else. Its Word is 0xF025: run from a ready machine, that cycle leaves PC past it, and the
next step moves the status to `Halted` and fetches nothing. The notice is OPEN: log 14. The moves of the
host around the two steps, and their schedule, are log 20, log 21; that a fetch from 0xFE02 is plain is
log 29. That COND stays is log 23. -/
def Obligations.HaltWritesTheNoticeAndStops : Prop :=
  (∀ s : State, exec .halt s =
    .next { s with output := s.output ++ Config.haltNotice, running := false }) ∧
  ∀ s : State, s.Ready → s.pc ≠ Config.kbsr → s.arrayRead s.pc = 0xF025#16 →
    ∃ t, step s = .next t ∧ t.output = s.output ++ Config.haltNotice ∧ t.pc = s.pc + 1#16 ∧
      t.cond = s.cond ∧ RegsKeptBut [] s t ∧ MemKeptBut [] s t ∧
      step t = .next { t.hostTurn with status := .halted }

/-- 43_system.md R180, R181: TRAP is the service its vector selects. The vectors but HALT's are PRESUMED:
log 13. The services as constructors beside TRAP are log 26. -/
def Obligations.TrapRunsTheServiceOfItsVector : Prop :=
  ∀ s : State, exec (.trap 0x20#8) s = exec .getc s ∧ exec (.trap 0x21#8) s = exec .out s ∧
    exec (.trap 0x22#8) s = exec .puts s ∧ exec (.trap 0x23#8) s = exec .inChar s ∧
    exec (.trap 0x24#8) s = exec .putsp s ∧ exec (.trap 0x25#8) s = exec .halt s

/-- 43_system.md R188: TRAP with any other vector completes in every state and has no effect at all. That
COND stays is log 23. The range of the service vectors is PRESUMED but for 0x25: log 13. -/
def Obligations.UnrecognisedVectorsHaveNoEffect : Prop :=
  ∀ (vector : BitVec 8) (s : State), vector.toNat < 0x20 ∨ 0x25 < vector.toNat →
    exec (.trap vector) s = .next s

/-- 43_system.md R180, 60_exceptions.md R218: no TRAP and no service writes R7, PC, COND or memory. That
PUTS and PUTSP read with no keyboard poll, and so keep memory even over 0xFE00, is log 11 (20_memory.md
R56). That COND stays is log 23. -/
def Obligations.TrapSavesNothing : Prop :=
  ∀ (i : Instr) (s t : State),
    ((∃ vector, i = .trap vector) ∨ i ∈ [Instr.getc, .out, .puts, .inChar, .putsp, .halt]) →
    exec i s = .next t →
    t.reg 7 = s.reg 7 ∧ t.pc = s.pc ∧ t.cond = s.cond ∧ MemKeptBut [] s t

/-- 43_system.md R189, R190, 60_exceptions.md R211: RTI and RES record the address and the Word in the
status, and change nothing else: PC stays past the Word, and no handler is entered. The opcode numbers in
the recorded Words, 8 and 13, are PRESUMED: log 5. The state left is the spec's decision, and its being a
next state is log 17. That COND stays is log 23. -/
def Obligations.RtiAndResRecordTheFault : Prop :=
  ∀ (low : BitVec 12) (s : State),
    exec (.rti low) s = .next { s with
      status := .faulted (.unsupported (s.pc - 1#16) (BitVec.ofNat 16 (0x8000 + low.toNat))) } ∧
    exec (.res low) s = .next { s with
      status := .faulted (.unsupported (s.pc - 1#16) (BitVec.ofNat 16 (0xD000 + low.toNat))) }

/-! ## Rules over every instruction -/

/-- Every instruction answers a next state, whatever the state is: by 60_exceptions.md R213 no condition
but RTI, RES and a string overrun raises an exception. That these three answer a next state with status
`Faulted` is the model's choice, log 17 (the overrun itself is log 11); that GETC and IN without an answer
do, with the wait set, is the model's choice, log 19. Running State is cleared by HALT alone (10_state.md
R30); that TRAP 0x25 is HALT is 43_system.md R181. The other vectors a TRAP is told apart by are PRESUMED:
log 13. -/
def Obligations.EveryInstructionAnswersANextState : Prop :=
  ∀ (i : Instr) (s : State), ∃ t, exec i s = .next t ∧
    (t.status ≠ s.status → i.mayFault = true ∧ ∃ f, t.status = .faulted f) ∧
    (t.running ≠ s.running → t.running = false ∧ (i = .halt ∨ i = .trap 0x25#8)) ∧
    (t.wait ≠ s.wait → i.readsHost = true)

/-- 10_state.md R22: an instruction writes no general register but the one the table names. That the
vectors of GETC and IN are 0x20 and 0x23 is PRESUMED: log 13. -/
def Obligations.RegistersWrittenAreTheTables : Prop :=
  ∀ (i : Instr) (s t : State), exec i s = .next t → RegsKeptBut i.writtenRegs s t

/-- 10_state.md R26 (an inference of the spec's own): after the increment PC is changed by BR, JMP, RET,
JSR and JSRR only. -/
def Obligations.PcChangedOnlyByControlTransfer : Prop :=
  ∀ (i : Instr) (s t : State), i.transfersControl = false → exec i s = .next t → t.pc = s.pc

/-- 60_exceptions.md R223, 00_scope.md R5: output only grows and only by OUT, PUTS, PUTSP, IN and HALT;
input is only consumed from its front, and only by GETC, IN and reads of 0xFE00. The vectors but HALT's
are PRESUMED: log 13. The streams' form, and the schedule that no instruction changes, are log 20. That
PUTS and PUTSP read with no keyboard poll, and so consume no input even over 0xFE00, is log 11
(20_memory.md R56). End of stream as an item is log 30. That reads of 0xFE02 are plain is log 29. -/
def Obligations.HostStreamsMoveOnlyByTheirUsers : Prop :=
  ∀ (i : Instr) (s t : State), exec i s = .next t →
    s.output <+: t.output ∧ (i.writesOutput = false → t.output = s.output) ∧
    t.input <:+ s.input ∧
    (i.readsHost = false → Config.kbsr ∉ i.memReads s → t.input = s.input) ∧ t.host = s.host

/-! ## The cycle -/

/-- 10_state.md R24, R32: a step of a ready machine fetches with `MemRead` at PC, increments PC modulo
2^16, and is exec of the decoded instruction; away from 0xFE00 the fetch changes nothing else. Around exec
stand the status becoming `Running` (R32) and the host's moves of this step, which the model holds in its
own schedule and makes between steps: log 20, log 21. That a fetch from 0xFE02 is plain is log 29. -/
def Obligations.StepRunsTheDecodedInstruction : Prop :=
  ∀ s : State, s.Ready →
    (step s =
      exec (decode (({ s.hostTurn with status := .running } : State).memRead s.pc).1)
        { (({ s.hostTurn with status := .running } : State).memRead s.pc).2 with pc := s.pc + 1#16 }) ∧
    ∀ i : Instr, i.wellFormed = true → s.pc ≠ Config.kbsr → decode (s.arrayRead s.pc) = i →
      step s = exec i { s.hostTurn with status := .running, pc := s.pc + 1#16 }

/-- 10_state.md R32, 60_exceptions.md R215: at the top of a cycle a cleared Running State moves the status
to `Halted`; nothing is fetched and nothing else changes. That this holds before the first cycle too is
log 24; the host's moves and their schedule are log 20, log 21. -/
def Obligations.ClearedRunningHaltsAtTheTop : Prop :=
  ∀ s : State, (s.status = .loaded ∨ s.status = .running) → s.wait = none →
    s.hostTurn.running = false → step s = .next { s.hostTurn with status := .halted }

/-- 10_state.md R32, 60_exceptions.md R226: `Halted` and `Faulted` are terminal over any number of steps;
a halted machine keeps its whole state, a faulted one answers its fault (log 17, log 18). -/
def Obligations.HaltedAndFaultedAreTerminal : Prop :=
  ∀ (s : State) (k : Nat),
    (s.status = .halted → core.run k s = .next s) ∧
    (∀ f, s.status = .faulted f → core.run (k + 1) s = .fault f)

/-- A step answers a fault exactly in status `Faulted`, and that fault: the model's choice, log 17, for
the terminal status of 60_exceptions.md R213 and R226. It never refuses. Otherwise it answers a next
state: a halted machine its own state, the model's choice, log 18, and a waiting one its wait, log 19. -/
def Obligations.StepFaultsExactlyWhenFaulted : Prop :=
  ∀ s : State, (∀ f, step s = .fault f ↔ s.status = .faulted f) ∧ (∀ r, step s ≠ .refused r) ∧
    (s.Safe → ∃ t, step s = .next t)

/-- 60_exceptions.md R210, R211, R212: a Word with RTI's or RES's opcode at PC (away from 0xFE00) ends the
run in that step: the fault has the fetch address and the Word, PC is one past it, registers, COND and
memory are as before, and the next step answers the fault. Log 5, log 17. The host's moves and their
schedule are log 20, log 21; that the low bits do not matter is log 7, that a fetch from 0xFE02 is plain
log 29. That COND stays is log 23. -/
def Obligations.UnsupportedWordEndsTheRun : Prop :=
  ∀ s : State, s.Ready → s.pc ≠ Config.kbsr →
    ((s.arrayRead s.pc).extractLsb' 12 4 = 0b1000#4 ∨ (s.arrayRead s.pc).extractLsb' 12 4 = 0b1101#4) →
    ∃ t, step s = .next t ∧ t.status = .faulted (.unsupported s.pc (s.arrayRead s.pc)) ∧
      t.pc = s.pc + 1#16 ∧ RegsKeptBut [] s t ∧ t.cond = s.cond ∧ MemKeptBut [] s t ∧
      t.output = s.output ∧ step t = .fault (.unsupported s.pc (s.arrayRead s.pc))

/-- 10_state.md R30: Running State once false is never true again, and a step clears it in two ways only:
by an interrupt request among the host's events of this step (the schedule is log 20), or by HALT, that
is, with nothing waiting and the Word fetched in this step decoding to HALT. That a halted step keeps its
state is log 18, the form of the wait log 19; the notice is OPEN: log 14. -/
def Obligations.RunningOnceFalseStaysFalse : Prop :=
  ∀ s t : State, step s = .next t →
    (s.running = false → t.running = false) ∧
    (s.running = true → s.hostTurn.running = false →
      ∃ events later, s.host = events :: later ∧ HostEvent.interrupt ∈ events) ∧
    (s.hostTurn.running = true → t.running = false →
      s.wait = none ∧
      decode (({ s.hostTurn with status := .running } : State).memRead s.pc).1 = .halt ∧
      t.output = s.output ++ Config.haltNotice)

/-- 60_exceptions.md R214, R228, 20_memory.md R65: before a step the host extends the input, may clear
Running State, and touches nothing else; Running State is cleared exactly by an interrupt request. The
schedule the events come from, and its advancing by one list a step, are the model's own: log 20. -/
def Obligations.HostTouchesOnlyInputAndRunning : Prop :=
  ∀ (s : State) (events : List HostEvent) (later : List (List HostEvent)), s.host = events :: later →
    s.hostTurn = { s with
      input := s.input ++ events.filterMap (fun e => match e with
        | .deliver x => some x
        | .interrupt => none),
      running := s.running && !decide (HostEvent.interrupt ∈ events),
      host := later }

/-- 43_system.md R191: while the host has not answered, a waiting machine's step is the host's moves and
nothing else. The wait's form is log 19, that a request does not end it log 16, the schedule log 20. -/
def Obligations.WaitingStepDoesNothing : Prop :=
  ∀ s : State, s.status = .running → s.wait ≠ none → s.hostTurn.input = [] → step s = .next s.hostTurn

/-- 43_system.md R191 with R182 and R185: when the host has answered, a waiting machine's step finishes
GETC or IN, whatever Running State is: R0 takes the item's Word, IN echoes its low byte, the wait ends,
and PC, COND, the other registers, memory and Running State stay. With Running State cleared the next step
then halts (60_exceptions.md R217); that the request does not end the wait is the spec's decision, log 16.
The wait's form is log 19; the item's Word and the echo are log 9, log 10, log 15. The schedule is log 20,
end of stream as an item log 30. That COND stays is log 23. -/
def Obligations.InterruptedReadFinishesThenHalts : Prop :=
  ∀ (s : State) (service : WaitService) (x : HostChar) (rest : List HostChar), s.status = .running →
    s.wait = some service → s.hostTurn.input = x :: rest →
    ∃ t, step s = .next t ∧ t.reg 0 = charWord x ∧ RegsKeptBut [0] s t ∧ t.cond = s.cond ∧
      t.pc = s.pc ∧ MemKeptBut [] s t ∧ t.running = s.hostTurn.running ∧ t.wait = none ∧
      t.status = .running ∧ t.input = rest ∧ t.host = s.hostTurn.host ∧
      t.output = s.output ++ (match service with
        | .getc => []
        | .inChar => [lowByte (charWord x)]) ∧
      (s.hostTurn.running = false → step t = .next { t.hostTurn with status := .halted })

/-- 20_memory.md R68, 70_reset_and_hazards.md R249 (inferences of the spec's own): a Word that ST, STR or
STI stores at the next instruction's address is the Word the next step runs. That stores to and fetches
from 0xFE02 are plain is log 29; the host's moves and their schedule are log 20, log 21. -/
def Obligations.StoredWordRunsNext : Prop :=
  ∀ (i : Instr) (src : Reg) (s : State),
    ((∃ offset9, i = .st src offset9) ∨ (∃ base offset6, i = .str src base offset6) ∨
      ∃ offset9, i = .sti src offset9) →
    i.storeAddr s = some s.pc → s.pc ≠ Config.kbsr → s.Ready →
    ∃ t, exec i s = .next t ∧
      step t = exec (decode (s.reg src)) { t.hostTurn with status := .running, pc := s.pc + 1#16 }

/-- The host's moves after a step do not matter to it (60_exceptions.md R214; the schedule is the model's
own field, log 20): a step sees only the first list of the schedule. -/
def Obligations.LaterHostEventsDoNotMatter : Prop :=
  ∀ (s t : State) (events : List HostEvent) (later other : List (List HostEvent)),
    (s.status = .loaded ∨ s.status = .running) →
    step { s with host := events :: later } = .next t →
    step { s with host := events :: other } = .next { t with host := other }

/-! ## Invariants, reset and boot -/

/-- Every step keeps the invariant: the memory's canonical form (log 1), a one-hot COND (10_state.md R29),
a wait only while running (the wait's form is log 19), and Running State cleared once halted (10_state.md
R32; a halted step keeps its state, log 18). That the instructions which do not define flags keep COND is
log 23; that a fault is a next state with status `Faulted` is log 17. -/
def Obligations.StepKeepsTheInvariant : Prop :=
  ∀ s t : State, s.Inv → step s = .next t → t.Inv

/-- The reset state (10_state.md R35) meets the invariant; its COND is ZRO by the spec's decision D4: log
3. The form of memory is log 1. -/
def Obligations.ResetMeetsTheInvariant : Prop := State.reset.Inv

/-- 10_state.md R35: the reset values. R0..R7, PC and COND are the spec's decisions: log 2, log 4, log 3;
the empty input is log 20. The bit of ZRO is PRESUMED: log 6. -/
def Obligations.ResetValuesAreTheTables : Prop :=
  (∀ r, State.reset.reg r = 0x0000#16) ∧ (∀ a, State.reset.arrayRead a = 0x0000#16) ∧
  State.reset.pc = 0x3000#16 ∧ State.reset.cond = 0b010#3 ∧ State.reset.running = true ∧
  State.reset.status = .loaded ∧ State.reset.wait = none ∧ State.reset.output = []

/-- 70_reset_and_hazards.md R242, R243: what loading an image leaves at every address: the image's
big-endian Words from its origin on, none past 0xFFFF, no trailing byte, and elsewhere what stood there.
The corners and `LOAD_TOP` are log 25. -/
def Obligations.LoadedImageReadsBack : Prop :=
  ∀ (hi lo : Byte) (body : List Byte) (m : Memory), ∃ m', loadImage (hi :: lo :: body) m = some m' ∧
    ∀ a, m'.read a =
      if h : hi.toNat * 256 + lo.toNat ≤ a ∧ a ≤ 0xFFFF ∧
          2 * (a - (hi.toNat * 256 + lo.toNat)) + 1 < body.length then
        BitVec.ofNat 16 ((body[2 * (a - (hi.toNat * 256 + lo.toNat))]'(by omega)).toNat * 256 +
          (body[2 * (a - (hi.toNat * 256 + lo.toNat)) + 1]'h.2.2).toNat)
      else m.read a

/-- 70_reset_and_hazards.md R241, R244, R245: images load in order, the last one over the others; a load
fails exactly when some image has fewer than two bytes (log 25). -/
def Obligations.ImagesLoadInOrder : Prop :=
  (∀ (images : List (List Byte)) (last : List Byte) (m : Memory),
    loadImages (images ++ [last]) m = (loadImages images m).bind (loadImage last)) ∧
  ∀ (images : List (List Byte)) (m : Memory),
    loadImages images m = none ↔ ∃ b ∈ images, b.length < 2

/-- 70_reset_and_hazards.md R241, R246: a booted machine meets the invariant, is reset but for memory, and
its first step runs the Word at `PC_START` = 0x3000, whatever the origins are. What reset is rests on the
zero registers (log 2), COND (log 3), PC (log 4) and the empty input and schedule, by which no host move
comes before the first step (log 20); the loader's corners are log 25. The form of memory is log 1. -/
def Obligations.BootedMachineStartsAtPcStart : Prop :=
  ∀ (images : List (List Byte)) (s : State), State.boot images = some s →
    s.Inv ∧ { s with mem := [] } = State.reset ∧
    step s = exec (decode (s.arrayRead 0x3000#16)) { s with status := .running, pc := 0x3001#16 }
end

