-- ==== Sys2Proof/Laws/Decode.lean ====
section
/-! SUPPORT. The laws of the register fields and of reading a field of an assembled Word. -/

namespace Sys2Proof

@[simp] theorem regOfBits_regBits (r : Reg) : regOfBits (regBits r) = r := by
  revert r; decide

@[simp] theorem regBits_regOfBits (b : BitVec 3) : regBits (regOfBits b) = b := by
  revert b; decide

theorem regBits_inj {r q : Reg} (h : regBits r = regBits q) : r = q := by
  rw [← regOfBits_regBits r, h, regOfBits_regBits]

@[simp] theorem regBits_toNat (r : Reg) : (regBits r).toNat = r.val := by
  revert r; decide

/-- A field of a Word, as a number: the form in which `omega` decides facts about encodings. -/
theorem field_toNat (w : Word) (lo len : Nat) :
    (w.extractLsb' lo len).toNat = w.toNat / 2 ^ lo % 2 ^ len := by
  rw [BitVec.extractLsb'_toNat, Nat.shiftRight_eq_div_pow]

/-- Two parts side by side, as a number. -/
theorem append_toNat {v w : Nat} (hi : BitVec v) (lo : BitVec w) :
    (hi ++ lo).toNat = hi.toNat * 2 ^ w + lo.toNat := by
  rw [BitVec.toNat_append, ← Nat.shiftLeft_add_eq_or_of_lt lo.isLt, Nat.shiftLeft_eq]

/-! ### The formats of 30_encoding.md R82, as numbers -/

theorem wordRegReg_toNat (op : BitVec 4) (r11 r8 : Reg) (low : BitVec 6) :
    (wordRegReg op r11 r8 low).toNat =
      op.toNat * 4096 + r11.val * 512 + r8.val * 64 + low.toNat := by
  simp only [wordRegReg, append_toNat, regBits_toNat]; omega

theorem wordReg_toNat (op : BitVec 4) (r11 : Reg) (low : BitVec 9) :
    (wordReg op r11 low).toNat = op.toNat * 4096 + r11.val * 512 + low.toNat := by
  simp only [wordReg, append_toNat, regBits_toNat]; omega

theorem wordMask_toNat (op : BitVec 4) (mask : BitVec 3) (low : BitVec 9) :
    (wordMask op mask low).toNat = op.toNat * 4096 + mask.toNat * 512 + low.toNat := by
  simp only [wordMask, append_toNat]; omega

theorem wordFlag_toNat (op : BitVec 4) (flag : BitVec 1) (low : BitVec 11) :
    (wordFlag op flag low).toNat = op.toNat * 4096 + flag.toNat * 2048 + low.toNat := by
  simp only [wordFlag, append_toNat]; omega

theorem wordVector_toNat (op ignored : BitVec 4) (vector : BitVec 8) :
    (wordVector op ignored vector).toNat = op.toNat * 4096 + ignored.toNat * 256 + vector.toNat := by
  simp only [wordVector, append_toNat]; omega

theorem wordLow_toNat (op : BitVec 4) (low : BitVec 12) :
    (wordLow op low).toNat = op.toNat * 4096 + low.toNat := by
  simp only [wordLow, append_toNat]; omega

theorem lowRegister_toNat (src2 : Reg) : (lowRegister src2).toNat = src2.val := by
  simp only [lowRegister, append_toNat, regBits_toNat]
  simp

theorem lowImmediate_toNat (imm5 : BitVec 5) : (lowImmediate imm5).toNat = 32 + imm5.toNat := by
  simp only [lowImmediate, append_toNat]
  simp

/-- A service's vector decodes to the service's row, never to a TRAP of that vector. -/
theorem decodeTrap_wellFormed (vector : BitVec 8) : (decodeTrap vector).wellFormed = true := by
  unfold decodeTrap
  split_ifs <;> simp_all [Instr.wellFormed, serviceVectors]

/-- The register a field selects, as a number. -/
theorem regField_val (w : Word) (lo : Nat) : (regField w lo).val = w.toNat / 2 ^ lo % 8 := by
  simp only [regField, regOfBits, field_toNat, Nat.reducePow]

end Sys2Proof
end

