-- ==== Sys2Proof/Laws/Memory.lean ====
section
/-! SUPPORT. The laws of the memory array: a read after a write, the canonical form, and that memories
in that form that read alike are equal. -/

namespace Sys2Proof.Machine

theorem read_nil (a : Nat) : Memory.read [] a = unlistedWord := rfl

theorem read_cons (c : Nat × Word) (m : Memory) (a : Nat) :
    Memory.read (c :: m) a = if c.1 = a then c.2 else Memory.read m a := rfl

/-! ## A read after a write -/

theorem read_erase (m : Memory) (a b : Nat) :
    (m.erase a).read b = if a = b then unlistedWord else m.read b := by
  induction m with
  | nil => simp [Memory.erase, read_nil]
  | cons c m ih =>
    unfold Memory.erase at ih ⊢
    by_cases hca : c.1 = a
    · simp only [List.filter_cons, hca, ne_eq, not_true_eq_false, decide_false, read_cons]
      rw [if_neg (by simp), ih]
      split <;> simp_all
    · simp only [List.filter_cons, ne_eq, hca, not_false_eq_true, decide_true, if_true, read_cons, ih]
      split
      · next hcb => rw [if_neg (by omega)]
      · rfl

theorem read_insert (m : Memory) (c : Nat × Word) (b : Nat)
    (hc : ∀ d ∈ m, d.1 ≠ c.1) :
    (m.insert c).read b = if c.1 = b then c.2 else m.read b := by
  induction m with
  | nil => rfl
  | cons d m ih =>
    simp only [Memory.insert]
    split
    · rfl
    · have hd : d.1 ≠ c.1 := hc d (by simp)
      rw [read_cons, read_cons, ih fun e he => hc e (by simp [he])]
      split
      · next hdb => rw [if_neg (by omega)]
      · rfl

theorem ne_of_mem_erase {m : Memory} {a : Nat} {c : Nat × Word} (h : c ∈ m.erase a) : c.1 ≠ a := by
  simpa using (List.mem_filter.1 h).2

/-- A read after a write: the Word written at that address, what stood there at any other. -/
theorem read_write (m : Memory) (a b : Nat) (v : Word) :
    (m.write a v).read b = if a = b then v else m.read b := by
  unfold Memory.write
  split
  · next hv => rw [read_erase, hv]
  · rw [read_insert (m.erase a) (a, v) b fun d hd => ne_of_mem_erase hd, read_erase]
    simp only
    split <;> rfl

@[simp] theorem read_write_same (m : Memory) (a : Nat) (v : Word) : (m.write a v).read a = v := by
  rw [read_write, if_pos rfl]

theorem read_write_other (m : Memory) {a b : Nat} (v : Word) (h : a ≠ b) :
    (m.write a v).read b = m.read b := by
  rw [read_write, if_neg h]

/-! ## The canonical form -/

theorem wf_nil : Memory.Wf [] := ⟨.nil, by simp⟩

theorem Memory.Wf.erase {m : Memory} (hm : m.Wf) (a : Nat) : (m.erase a).Wf :=
  ⟨hm.1.filter _, fun c hc => hm.2 c (List.mem_filter.1 hc).1⟩

theorem mem_insert {m : Memory} {c d : Nat × Word} (h : d ∈ m.insert c) : d = c ∨ d ∈ m := by
  induction m with
  | nil => simpa [Memory.insert] using h
  | cons e m ih =>
    simp only [Memory.insert] at h
    split at h
    · simpa using h
    · rcases List.mem_cons.1 h with rfl | h
      · simp
      · rcases ih h with h | h <;> simp [h]

theorem pairwise_insert {m : Memory} (hm : m.Pairwise fun c d => c.1 < d.1) {c : Nat × Word}
    (hc : ∀ d ∈ m, d.1 ≠ c.1) : (m.insert c).Pairwise fun c d => c.1 < d.1 := by
  induction m with
  | nil => simp [Memory.insert]
  | cons e m ih =>
    have hm' := List.pairwise_cons.1 hm
    have hce := hc e (by simp)
    simp only [Memory.insert]
    split
    · next hlt =>
      refine List.pairwise_cons.2 ⟨fun d hd => ?_, hm⟩
      rcases List.mem_cons.1 hd with rfl | hd
      · exact hlt
      · exact hlt.trans (hm'.1 d hd)
    · next hge =>
      refine List.pairwise_cons.2 ⟨fun d hd => ?_, ih hm'.2 fun d hd => hc d (by simp [hd])⟩
      rcases mem_insert hd with rfl | hd
      · omega
      · exact hm'.1 d hd

/-- A write keeps the canonical form. -/
theorem Memory.Wf.write {m : Memory} (hm : m.Wf) {a : Nat} (ha : a < 65536) (v : Word) :
    (m.write a v).Wf := by
  unfold Memory.write
  split
  · exact hm.erase a
  · next hv =>
    refine ⟨pairwise_insert (hm.erase a).1 fun d hd => ne_of_mem_erase hd, fun d hd => ?_⟩
    rcases mem_insert hd with rfl | hd
    · exact ⟨ha, hv⟩
    · exact (hm.erase a).2 d hd

theorem read_of_forall_ne {m : Memory} {a : Nat} (h : ∀ c ∈ m, c.1 ≠ a) : m.read a = unlistedWord := by
  induction m with
  | nil => rfl
  | cons c m ih => rw [read_cons, if_neg (h c (by simp)), ih fun d hd => h d (by simp [hd])]

theorem read_of_mem {m : Memory} (hm : m.Wf) {c : Nat × Word} (hc : c ∈ m) : m.read c.1 = c.2 := by
  have hp := hm.1
  clear hm
  induction m with
  | nil => cases hc
  | cons d m ih =>
    rw [List.pairwise_cons] at hp
    rcases List.mem_cons.1 hc with rfl | hc
    · simp [read_cons]
    · rw [read_cons, if_neg (by have := hp.1 c hc; omega), ih hc hp.2]

/-- A memory in canonical form lists a cell exactly where it reads as something listed. -/
theorem mem_iff_read {m : Memory} (hm : m.Wf) (c : Nat × Word) :
    c ∈ m ↔ m.read c.1 = c.2 ∧ c.2 ≠ unlistedWord := by
  refine ⟨fun h => ⟨read_of_mem hm h, (hm.2 c h).2⟩, fun ⟨hr, hv⟩ => ?_⟩
  by_contra hc
  have : ∃ d ∈ m, d.1 = c.1 := by
    by_contra hno
    push Not at hno
    exact hv (hr ▸ read_of_forall_ne hno)
  obtain ⟨d, hd, he⟩ := this
  have := read_of_mem hm hd
  rw [he, hr] at this
  exact hc (by rwa [show c = d from Prod.ext he.symm this])

end Sys2Proof.Machine
end

