-- ==== Sys2Proof/Laws/State.lean ====
section
/-! SUPPORT. One lemma per field per update of the state, and the laws of reading a register and a Word
of memory after each update. -/

namespace Sys2Proof.Machine

variable (s : State)

/-! ### `State.setReg` -/

@[simp] theorem setReg_regs (r : Reg) (v : Word) : (s.setReg r v).regs = s.regs.set r v := rfl

@[simp] theorem setReg_pc (r : Reg) (v : Word) : (s.setReg r v).pc = s.pc := rfl

@[simp] theorem setReg_cond (r : Reg) (v : Word) : (s.setReg r v).cond = s.cond := rfl

@[simp] theorem setReg_mem (r : Reg) (v : Word) : (s.setReg r v).mem = s.mem := rfl

@[simp] theorem setReg_running (r : Reg) (v : Word) : (s.setReg r v).running = s.running := rfl

@[simp] theorem setReg_status (r : Reg) (v : Word) : (s.setReg r v).status = s.status := rfl

@[simp] theorem setReg_wait (r : Reg) (v : Word) : (s.setReg r v).wait = s.wait := rfl

@[simp] theorem setReg_input (r : Reg) (v : Word) : (s.setReg r v).input = s.input := rfl

@[simp] theorem setReg_output (r : Reg) (v : Word) : (s.setReg r v).output = s.output := rfl

@[simp] theorem setReg_host (r : Reg) (v : Word) : (s.setReg r v).host = s.host := rfl

@[simp] theorem setReg_arrayRead (r : Reg) (v : Word) (i : Word) :
    (s.setReg r v).arrayRead i = s.arrayRead i := rfl

/-! ### `State.setPc` -/

@[simp] theorem setPc_regs (a : Word) : (s.setPc a).regs = s.regs := rfl

@[simp] theorem setPc_pc (a : Word) : (s.setPc a).pc = a := rfl

@[simp] theorem setPc_cond (a : Word) : (s.setPc a).cond = s.cond := rfl

@[simp] theorem setPc_mem (a : Word) : (s.setPc a).mem = s.mem := rfl

@[simp] theorem setPc_running (a : Word) : (s.setPc a).running = s.running := rfl

@[simp] theorem setPc_status (a : Word) : (s.setPc a).status = s.status := rfl

@[simp] theorem setPc_wait (a : Word) : (s.setPc a).wait = s.wait := rfl

@[simp] theorem setPc_input (a : Word) : (s.setPc a).input = s.input := rfl

@[simp] theorem setPc_output (a : Word) : (s.setPc a).output = s.output := rfl

@[simp] theorem setPc_host (a : Word) : (s.setPc a).host = s.host := rfl

@[simp] theorem setPc_reg (a : Word) (i : Reg) : (s.setPc a).reg i = s.reg i := rfl

@[simp] theorem setPc_arrayRead (a : Word) (i : Word) :
    (s.setPc a).arrayRead i = s.arrayRead i := rfl

/-! ### `State.setcc` -/

@[simp] theorem setcc_regs (v : Word) : (s.setcc v).regs = s.regs := rfl

@[simp] theorem setcc_pc (v : Word) : (s.setcc v).pc = s.pc := rfl

@[simp] theorem setcc_cond (v : Word) : (s.setcc v).cond = condCode v := rfl

@[simp] theorem setcc_mem (v : Word) : (s.setcc v).mem = s.mem := rfl

@[simp] theorem setcc_running (v : Word) : (s.setcc v).running = s.running := rfl

@[simp] theorem setcc_status (v : Word) : (s.setcc v).status = s.status := rfl

@[simp] theorem setcc_wait (v : Word) : (s.setcc v).wait = s.wait := rfl

@[simp] theorem setcc_input (v : Word) : (s.setcc v).input = s.input := rfl

@[simp] theorem setcc_output (v : Word) : (s.setcc v).output = s.output := rfl

@[simp] theorem setcc_host (v : Word) : (s.setcc v).host = s.host := rfl

@[simp] theorem setcc_reg (v : Word) (i : Reg) : (s.setcc v).reg i = s.reg i := rfl

@[simp] theorem setcc_arrayRead (v : Word) (i : Word) :
    (s.setcc v).arrayRead i = s.arrayRead i := rfl

/-! ### `State.memWrite` -/

@[simp] theorem memWrite_regs (a v : Word) : (s.memWrite a v).regs = s.regs := rfl

@[simp] theorem memWrite_pc (a v : Word) : (s.memWrite a v).pc = s.pc := rfl

@[simp] theorem memWrite_cond (a v : Word) : (s.memWrite a v).cond = s.cond := rfl

@[simp] theorem memWrite_mem (a v : Word) : (s.memWrite a v).mem = s.mem.write a.toNat v := rfl

@[simp] theorem memWrite_running (a v : Word) : (s.memWrite a v).running = s.running := rfl

@[simp] theorem memWrite_status (a v : Word) : (s.memWrite a v).status = s.status := rfl

@[simp] theorem memWrite_wait (a v : Word) : (s.memWrite a v).wait = s.wait := rfl

@[simp] theorem memWrite_input (a v : Word) : (s.memWrite a v).input = s.input := rfl

@[simp] theorem memWrite_output (a v : Word) : (s.memWrite a v).output = s.output := rfl

@[simp] theorem memWrite_host (a v : Word) : (s.memWrite a v).host = s.host := rfl

@[simp] theorem memWrite_reg (a v : Word) (i : Reg) : (s.memWrite a v).reg i = s.reg i := rfl

/-! ### `State.emit` -/

@[simp] theorem emit_regs (bytes : List Byte) : (s.emit bytes).regs = s.regs := rfl

@[simp] theorem emit_pc (bytes : List Byte) : (s.emit bytes).pc = s.pc := rfl

@[simp] theorem emit_cond (bytes : List Byte) : (s.emit bytes).cond = s.cond := rfl

@[simp] theorem emit_mem (bytes : List Byte) : (s.emit bytes).mem = s.mem := rfl

@[simp] theorem emit_running (bytes : List Byte) : (s.emit bytes).running = s.running := rfl

@[simp] theorem emit_status (bytes : List Byte) : (s.emit bytes).status = s.status := rfl

@[simp] theorem emit_wait (bytes : List Byte) : (s.emit bytes).wait = s.wait := rfl

@[simp] theorem emit_input (bytes : List Byte) : (s.emit bytes).input = s.input := rfl

@[simp] theorem emit_output (bytes : List Byte) : (s.emit bytes).output = s.output ++ bytes := rfl

@[simp] theorem emit_host (bytes : List Byte) : (s.emit bytes).host = s.host := rfl

@[simp] theorem emit_reg (bytes : List Byte) (i : Reg) : (s.emit bytes).reg i = s.reg i := rfl

@[simp] theorem emit_arrayRead (bytes : List Byte) (i : Word) :
    (s.emit bytes).arrayRead i = s.arrayRead i := rfl

/-! ### `State.raise` -/

@[simp] theorem raise_regs (f : Fault) : (s.raise f).regs = s.regs := rfl

@[simp] theorem raise_pc (f : Fault) : (s.raise f).pc = s.pc := rfl

@[simp] theorem raise_cond (f : Fault) : (s.raise f).cond = s.cond := rfl

@[simp] theorem raise_mem (f : Fault) : (s.raise f).mem = s.mem := rfl

@[simp] theorem raise_running (f : Fault) : (s.raise f).running = s.running := rfl

@[simp] theorem raise_status (f : Fault) : (s.raise f).status = .faulted f := rfl

@[simp] theorem raise_wait (f : Fault) : (s.raise f).wait = s.wait := rfl

@[simp] theorem raise_input (f : Fault) : (s.raise f).input = s.input := rfl

@[simp] theorem raise_output (f : Fault) : (s.raise f).output = s.output := rfl

@[simp] theorem raise_host (f : Fault) : (s.raise f).host = s.host := rfl

@[simp] theorem raise_reg (f : Fault) (i : Reg) : (s.raise f).reg i = s.reg i := rfl

@[simp] theorem raise_arrayRead (f : Fault) (i : Word) :
    (s.raise f).arrayRead i = s.arrayRead i := rfl

/-! ### `State.stopRunning` -/

@[simp] theorem stopRunning_regs : (s.stopRunning).regs = s.regs := rfl

@[simp] theorem stopRunning_pc : (s.stopRunning).pc = s.pc := rfl

@[simp] theorem stopRunning_cond : (s.stopRunning).cond = s.cond := rfl

@[simp] theorem stopRunning_mem : (s.stopRunning).mem = s.mem := rfl

@[simp] theorem stopRunning_running : (s.stopRunning).running = false := rfl

@[simp] theorem stopRunning_status : (s.stopRunning).status = s.status := rfl

@[simp] theorem stopRunning_wait : (s.stopRunning).wait = s.wait := rfl

@[simp] theorem stopRunning_input : (s.stopRunning).input = s.input := rfl

@[simp] theorem stopRunning_output : (s.stopRunning).output = s.output := rfl

@[simp] theorem stopRunning_host : (s.stopRunning).host = s.host := rfl

@[simp] theorem stopRunning_reg (i : Reg) : (s.stopRunning).reg i = s.reg i := rfl

@[simp] theorem stopRunning_arrayRead (i : Word) :
    (s.stopRunning).arrayRead i = s.arrayRead i := rfl

/-! ### Reading a register after writing one -/

theorem setReg_reg (r i : Reg) (v : Word) : (s.setReg r v).reg i = if r = i then v else s.reg i := by
  simp [State.reg, State.setReg, Vector.getElem_set, Fin.ext_iff]

@[simp] theorem setReg_reg_same (r : Reg) (v : Word) : (s.setReg r v).reg r = v := by
  rw [setReg_reg, if_pos rfl]

theorem setReg_reg_other {r i : Reg} (v : Word) (h : r ≠ i) : (s.setReg r v).reg i = s.reg i := by
  rw [setReg_reg, if_neg h]

/-! ### Reading a Word after writing one -/

theorem memWrite_arrayRead (a i v : Word) :
    (s.memWrite a v).arrayRead i = if a = i then v else s.arrayRead i := by
  simp [State.arrayRead, State.memWrite, read_write, BitVec.toNat_inj]

@[simp] theorem memWrite_arrayRead_same (a v : Word) : (s.memWrite a v).arrayRead a = v := by
  rw [memWrite_arrayRead, if_pos rfl]

theorem memWrite_arrayRead_other {a i : Word} (v : Word) (h : a ≠ i) :
    (s.memWrite a v).arrayRead i = s.arrayRead i := by
  rw [memWrite_arrayRead, if_neg h]

theorem memWrite_wf {s : State} (h : s.mem.Wf) (a v : Word) : (s.memWrite a v).mem.Wf :=
  h.write a.isLt v

/-! ### `State.writeResult`: the flag-defining end of an instruction -/

@[simp] theorem writeResult_reg_same (dst : Reg) (v : Word) : (s.writeResult dst v).reg dst = v := by
  simp [State.writeResult]

theorem writeResult_reg (dst i : Reg) (v : Word) :
    (s.writeResult dst v).reg i = if dst = i then v else s.reg i := by
  simp [State.writeResult, setReg_reg]

@[simp] theorem writeResult_cond (dst : Reg) (v : Word) : (s.writeResult dst v).cond = condCode v := rfl

@[simp] theorem writeResult_pc (dst : Reg) (v : Word) : (s.writeResult dst v).pc = s.pc := rfl

@[simp] theorem writeResult_mem (dst : Reg) (v : Word) : (s.writeResult dst v).mem = s.mem := rfl

@[simp] theorem writeResult_running (dst : Reg) (v : Word) : (s.writeResult dst v).running = s.running := rfl

@[simp] theorem writeResult_status (dst : Reg) (v : Word) : (s.writeResult dst v).status = s.status := rfl

@[simp] theorem writeResult_wait (dst : Reg) (v : Word) : (s.writeResult dst v).wait = s.wait := rfl

@[simp] theorem writeResult_input (dst : Reg) (v : Word) : (s.writeResult dst v).input = s.input := rfl

@[simp] theorem writeResult_output (dst : Reg) (v : Word) : (s.writeResult dst v).output = s.output := rfl

@[simp] theorem writeResult_host (dst : Reg) (v : Word) : (s.writeResult dst v).host = s.host := rfl

@[simp] theorem writeResult_arrayRead (dst : Reg) (v i : Word) :
    (s.writeResult dst v).arrayRead i = s.arrayRead i := rfl

end Sys2Proof.Machine
end

