-- ==== Sys2Proof/Laws/Ops.lean ====
section
/-! SUPPORT. What each shared operation of Machine/Ops.lean and Machine/Cycle.lean can do, said once. -/

namespace Sys2Proof.Machine

/-! ### The host input -/

theorem hostRead_nil {s : State} (h : s.input = []) : s.hostRead = none := by
  simp [State.hostRead, h]

theorem hostRead_cons {s : State} {x : HostChar} {rest : List HostChar} (h : s.input = x :: rest) :
    s.hostRead = some (charWord x, { s with input := rest }) := by
  simp [State.hostRead, h]

/-! ### The keyboard poll (20_memory.md R53) -/

theorem pollKeyboard_nil {s : State} (h : s.input = []) :
    s.pollKeyboard = s.memWrite Config.kbsr 0x0000#16 := by
  simp [State.pollKeyboard, hostRead_nil h]

theorem pollKeyboard_cons {s : State} {x : HostChar} {rest : List HostChar} (h : s.input = x :: rest) :
    s.pollKeyboard =
      (State.memWrite { s with input := rest } Config.kbdr (charWord x)).memWrite Config.kbsr
        Config.kbsrReady := by
  simp [State.pollKeyboard, hostRead_cons h]

/-- All a poll can do: with nothing available it clears the status Word, else it consumes one item,
stores its Word at 0xFE02 and the ready status at 0xFE00. -/
theorem pollKeyboard_cases (s : State) :
    (s.input = [] ∧ s.pollKeyboard = s.memWrite Config.kbsr 0x0000#16) ∨
      ∃ x rest, s.input = x :: rest ∧ s.pollKeyboard =
        (State.memWrite { s with input := rest } Config.kbdr (charWord x)).memWrite Config.kbsr
          Config.kbsrReady := by
  cases h : s.input with
  | nil => exact .inl ⟨rfl, pollKeyboard_nil h⟩
  | cons x rest => exact .inr ⟨x, rest, rfl, pollKeyboard_cons h⟩

/-! ### `MemRead` (20_memory.md R52) -/

@[simp] theorem intercept_kbsr (s : State) : s.intercept Config.kbsr = s.pollKeyboard := if_pos rfl

theorem intercept_other (s : State) {a : Word} (h : a ≠ Config.kbsr) : s.intercept a = s := if_neg h

theorem memRead_fst (s : State) (a : Word) : (s.memRead a).1 = (s.intercept a).arrayRead a := rfl

@[simp] theorem memRead_snd (s : State) (a : Word) : (s.memRead a).2 = s.intercept a := rfl

theorem memRead_other (s : State) {a : Word} (h : a ≠ Config.kbsr) :
    s.memRead a = (s.arrayRead a, s) := by
  simp [State.memRead, intercept_other s h]

@[simp] theorem pollKeyboard_regs (s : State) : (s.pollKeyboard).regs = s.regs := by
  rcases pollKeyboard_cases s with ⟨_, h⟩ | ⟨_, _, _, h⟩ <;> rw [h] <;> rfl

@[simp] theorem pollKeyboard_pc (s : State) : (s.pollKeyboard).pc = s.pc := by
  rcases pollKeyboard_cases s with ⟨_, h⟩ | ⟨_, _, _, h⟩ <;> rw [h] <;> rfl

@[simp] theorem pollKeyboard_cond (s : State) : (s.pollKeyboard).cond = s.cond := by
  rcases pollKeyboard_cases s with ⟨_, h⟩ | ⟨_, _, _, h⟩ <;> rw [h] <;> rfl

@[simp] theorem pollKeyboard_running (s : State) : (s.pollKeyboard).running = s.running := by
  rcases pollKeyboard_cases s with ⟨_, h⟩ | ⟨_, _, _, h⟩ <;> rw [h] <;> rfl

@[simp] theorem pollKeyboard_status (s : State) : (s.pollKeyboard).status = s.status := by
  rcases pollKeyboard_cases s with ⟨_, h⟩ | ⟨_, _, _, h⟩ <;> rw [h] <;> rfl

@[simp] theorem pollKeyboard_wait (s : State) : (s.pollKeyboard).wait = s.wait := by
  rcases pollKeyboard_cases s with ⟨_, h⟩ | ⟨_, _, _, h⟩ <;> rw [h] <;> rfl

@[simp] theorem pollKeyboard_output (s : State) : (s.pollKeyboard).output = s.output := by
  rcases pollKeyboard_cases s with ⟨_, h⟩ | ⟨_, _, _, h⟩ <;> rw [h] <;> rfl

@[simp] theorem pollKeyboard_host (s : State) : (s.pollKeyboard).host = s.host := by
  rcases pollKeyboard_cases s with ⟨_, h⟩ | ⟨_, _, _, h⟩ <;> rw [h] <;> rfl

@[simp] theorem pollKeyboard_reg (s : State) (i : Reg) : (s.pollKeyboard).reg i = s.reg i := by
  simp [State.reg]

@[simp] theorem intercept_regs (s : State) (a : Word) : (s.intercept a).regs = s.regs := by
  unfold State.intercept
  split <;> simp

@[simp] theorem intercept_pc (s : State) (a : Word) : (s.intercept a).pc = s.pc := by
  unfold State.intercept
  split <;> simp

@[simp] theorem intercept_cond (s : State) (a : Word) : (s.intercept a).cond = s.cond := by
  unfold State.intercept
  split <;> simp

@[simp] theorem intercept_running (s : State) (a : Word) : (s.intercept a).running = s.running := by
  unfold State.intercept
  split <;> simp

@[simp] theorem intercept_status (s : State) (a : Word) : (s.intercept a).status = s.status := by
  unfold State.intercept
  split <;> simp

@[simp] theorem intercept_wait (s : State) (a : Word) : (s.intercept a).wait = s.wait := by
  unfold State.intercept
  split <;> simp

@[simp] theorem intercept_output (s : State) (a : Word) : (s.intercept a).output = s.output := by
  unfold State.intercept
  split <;> simp

@[simp] theorem intercept_host (s : State) (a : Word) : (s.intercept a).host = s.host := by
  unfold State.intercept
  split <;> simp

@[simp] theorem intercept_reg (s : State) (a : Word) (i : Reg) : (s.intercept a).reg i = s.reg i := by
  simp [State.reg]

theorem pollKeyboard_arrayRead_other (s : State) {i : Word} (h0 : i ≠ Config.kbsr)
    (h2 : i ≠ Config.kbdr) : s.pollKeyboard.arrayRead i = s.arrayRead i := by
  rcases pollKeyboard_cases s with ⟨_, h⟩ | ⟨_, _, _, h⟩ <;>
    rw [h, memWrite_arrayRead_other _ _ h0.symm]
  rw [memWrite_arrayRead_other _ _ h2.symm]
  rfl

theorem intercept_arrayRead_other (s : State) (a : Word) {i : Word} (h0 : i ≠ Config.kbsr)
    (h2 : i ≠ Config.kbdr) : (s.intercept a).arrayRead i = s.arrayRead i := by
  unfold State.intercept
  split
  · exact pollKeyboard_arrayRead_other s h0 h2
  · rfl

/-- The status Word a `MemRead` of 0xFE00 returns is 0x0000 or the ready Word, and which says whether
an item was available. -/
theorem pollKeyboard_arrayRead_kbsr (s : State) :
    s.pollKeyboard.arrayRead Config.kbsr = if s.input = [] then 0x0000#16 else Config.kbsrReady := by
  rcases pollKeyboard_cases s with ⟨hi, h⟩ | ⟨_, _, hi, h⟩ <;> simp [h, hi]

theorem pollKeyboard_wf {s : State} (hs : s.mem.Wf) : s.pollKeyboard.mem.Wf := by
  rcases pollKeyboard_cases s with ⟨_, h⟩ | ⟨_, _, _, h⟩ <;> rw [h]
  · exact memWrite_wf hs _ _
  · exact memWrite_wf (memWrite_wf (s := { s with input := _ }) hs _ _) _ _

theorem intercept_wf {s : State} (hs : s.mem.Wf) (a : Word) : (s.intercept a).mem.Wf := by
  unfold State.intercept
  split
  · exact pollKeyboard_wf hs
  · exact hs

/-! ### The host's moves before a step (60_exceptions.md R214, R228) -/

/-- What the host's events before a step can change: the input grows, Running State may be cleared. -/
theorem foldl_hostEvent (events : List HostEvent) (s : State) :
    ∃ more, events.foldl State.hostEvent s =
      { s with input := s.input ++ more, running := s.running && !(events.contains .interrupt) } := by
  induction events generalizing s with
  | nil => exact ⟨[], by simp⟩
  | cons e events ih =>
    obtain ⟨more, h⟩ := ih (s.hostEvent e)
    cases e with
    | deliver x =>
      refine ⟨x :: more, ?_⟩
      rw [List.foldl_cons, h]
      simp [State.hostEvent]
    | interrupt =>
      refine ⟨more, ?_⟩
      rw [List.foldl_cons, h]
      simp [State.hostEvent, State.stopRunning]

/-- All the host's turn can do: it appends input, may clear Running State, and its own schedule moves
on. Registers, PC, COND, memory, status, wait and output stay. -/
theorem hostTurn_cases (s : State) :
    ∃ more keep, s.hostTurn =
      { s with input := s.input ++ more, running := s.running && keep, host := s.host.tail } := by
  unfold State.hostTurn
  cases h : s.host with
  | nil =>
    refine ⟨[], true, ?_⟩
    cases s
    simp_all
  | cons events rest =>
    obtain ⟨more, hm⟩ := foldl_hostEvent events { s with host := rest }
    exact ⟨more, _, hm⟩

@[simp] theorem hostTurn_regs (s : State) : s.hostTurn.regs = s.regs := by
  obtain ⟨_, _, h⟩ := hostTurn_cases s
  rw [h]

@[simp] theorem hostTurn_pc (s : State) : s.hostTurn.pc = s.pc := by
  obtain ⟨_, _, h⟩ := hostTurn_cases s
  rw [h]

@[simp] theorem hostTurn_cond (s : State) : s.hostTurn.cond = s.cond := by
  obtain ⟨_, _, h⟩ := hostTurn_cases s
  rw [h]

@[simp] theorem hostTurn_mem (s : State) : s.hostTurn.mem = s.mem := by
  obtain ⟨_, _, h⟩ := hostTurn_cases s
  rw [h]

@[simp] theorem hostTurn_status (s : State) : s.hostTurn.status = s.status := by
  obtain ⟨_, _, h⟩ := hostTurn_cases s
  rw [h]

@[simp] theorem hostTurn_wait (s : State) : s.hostTurn.wait = s.wait := by
  obtain ⟨_, _, h⟩ := hostTurn_cases s
  rw [h]

@[simp] theorem hostTurn_output (s : State) : s.hostTurn.output = s.output := by
  obtain ⟨_, _, h⟩ := hostTurn_cases s
  rw [h]

@[simp] theorem hostTurn_host (s : State) : s.hostTurn.host = s.host.tail := by
  obtain ⟨_, _, h⟩ := hostTurn_cases s
  rw [h]

@[simp] theorem hostTurn_reg (s : State) (i : Reg) : s.hostTurn.reg i = s.reg i := by
  simp [State.reg]

@[simp] theorem hostTurn_arrayRead (s : State) (a : Word) : s.hostTurn.arrayRead a = s.arrayRead a := by
  simp [State.arrayRead]

/-- Running State after the host's turn: it depends on Running State and this step's events alone. -/
theorem hostTurn_running (s : State) :
    s.hostTurn.running = (s.running && !((s.host.head?.getD []).contains .interrupt)) := by
  unfold State.hostTurn
  cases s.host with
  | nil => simp
  | cons events rest =>
    obtain ⟨more, h⟩ := foldl_hostEvent events { s with host := rest }
    exact congrArg State.running h

theorem hostTurn_running_false {s : State} (h : s.running = false) : s.hostTurn.running = false := by
  simp [hostTurn_running, h]

/-! ### Fetch -/

theorem fetch_fst (s : State) : s.fetch.1 = (s.memRead s.pc).1 := rfl

theorem fetch_snd (s : State) : s.fetch.2 = (s.intercept s.pc).setPc (s.pc + 1#16) := rfl

/-! ### One step -/

/-- All a step can do, by the run status: the core's own move after the host's, nothing once halted,
and the recorded fault once faulted. -/
theorem step_cases (s : State) :
    ((s.status = .loaded ∨ s.status = .running) ∧ step s = coreTurn s.hostTurn) ∨
      (s.status = .halted ∧ step s = .next s) ∨ ∃ f, s.status = .faulted f ∧ step s = .fault f := by
  unfold step turn
  cases h : s.status with
  | loaded => exact .inl ⟨.inl rfl, rfl⟩
  | running => exact .inl ⟨.inr rfl, rfl⟩
  | halted => exact .inr (.inl ⟨rfl, rfl⟩)
  | faulted f => exact .inr (.inr ⟨f, rfl, rfl⟩)

/-- All the core's own move can do: finish or go on waiting, find Running State cleared and halt, or
run the instruction fetched at PC. -/
theorem coreTurn_cases (s : State) :
    (∃ service, s.wait = some service ∧ coreTurn s = .next (s.resume service)) ∨
      (s.wait = none ∧ s.running = false ∧ coreTurn s = .next { s with status := .halted }) ∨
      (s.wait = none ∧ s.running = true ∧ coreTurn s =
        exec (decode { s with status := .running }.fetch.1) { s with status := .running }.fetch.2) := by
  unfold coreTurn cycle
  cases hw : s.wait with
  | some service => exact .inl ⟨service, rfl, rfl⟩
  | none =>
    cases hr : s.running with
    | false => exact .inr (.inl ⟨rfl, rfl, by simp⟩)
    | true => exact .inr (.inr ⟨rfl, rfl, by simp⟩)

end Sys2Proof.Machine
end

