-- ==== Sys2Proof/Laws/System.lean ====
section
/-! SUPPORT. What each trap service can do, said once (43_system.md R182 to R187). -/

namespace Sys2Proof.Machine

/-! ### GETC and IN -/

theorem finishGetc_nil {s : State} (h : s.input = []) : s.finishGetc = { s with wait := some .getc } := by
  simp [State.finishGetc, hostRead_nil h]

theorem finishGetc_cons {s : State} {x : HostChar} {rest : List HostChar} (h : s.input = x :: rest) :
    s.finishGetc = { s.setReg 0 (charWord x) with input := rest, wait := none } := by
  simp [State.finishGetc, hostRead_cons h, State.setReg]

theorem finishIn_nil {s : State} (h : s.input = []) : s.finishIn = { s with wait := some .inChar } := by
  simp [State.finishIn, hostRead_nil h]

theorem finishIn_cons {s : State} {x : HostChar} {rest : List HostChar} (h : s.input = x :: rest) :
    s.finishIn =
      { (s.emit [lowByte (charWord x)]).setReg 0 (charWord x) with input := rest, wait := none } := by
  simp [State.finishIn, hostRead_cons h, State.setReg, State.emit]

/-- All GETC can do: wait, or consume one item into R0. -/
theorem finishGetc_cases (s : State) :
    (s.input = [] ∧ s.finishGetc = { s with wait := some .getc }) ∨
      ∃ x rest, s.input = x :: rest ∧
        s.finishGetc = { s.setReg 0 (charWord x) with input := rest, wait := none } := by
  by_cases h : s.input = []
  · exact .inl ⟨h, finishGetc_nil h⟩
  · obtain ⟨x, rest, h⟩ := List.exists_cons_of_ne_nil h
    exact .inr ⟨x, rest, h, finishGetc_cons h⟩

/-- All IN can do after its prompt: wait, or echo one item and put it into R0. -/
theorem finishIn_cases (s : State) :
    (s.input = [] ∧ s.finishIn = { s with wait := some .inChar }) ∨
      ∃ x rest, s.input = x :: rest ∧ s.finishIn =
        { (s.emit [lowByte (charWord x)]).setReg 0 (charWord x) with input := rest, wait := none } := by
  by_cases h : s.input = []
  · exact .inl ⟨h, finishIn_nil h⟩
  · obtain ⟨x, rest, h⟩ := List.exists_cons_of_ne_nil h
    exact .inr ⟨x, rest, h, finishIn_cons h⟩

/-- All the end of a wait can do once the host has answered: R0 takes the item's Word, IN echoes. -/
theorem resume_cons {s : State} {x : HostChar} {rest : List HostChar} (h : s.input = x :: rest)
    (service : WaitService) :
    s.resume service =
      { s.setReg 0 (charWord x) with
        input := rest, wait := none,
        output := s.output ++ (match service with
          | .getc => []
          | .inChar => [lowByte (charWord x)]) } := by
  cases service with
  | getc => simp [State.resume, finishGetc_cons h]
  | inChar => simp [State.resume, finishIn_cons h, State.setReg]

/-! ### PUTS and PUTSP -/

/-- A string ends exactly when one of the Words in reach is zero. -/
theorem stringEnds_iff (m : Memory) (left p : Nat) :
    stringEnds m left p = true ↔ ∃ k < left, m.read (p + k) = 0#16 := by
  induction left generalizing p with
  | zero => simp [stringEnds]
  | succ left ih =>
    simp only [stringEnds]
    split
    · next h => simpa using ⟨0, by omega, h⟩
    · next h =>
      rw [ih]
      constructor
      · rintro ⟨k, hk, hz⟩
        exact ⟨k + 1, by omega, by rwa [show p + (k + 1) = p + 1 + k by omega]⟩
      · rintro ⟨k, hk, hz⟩
        cases k with
        | zero => exact absurd (by simpa using hz) h
        | succ k => exact ⟨k, by omega, by rwa [show p + 1 + k = p + (k + 1) by omega]⟩

/-- All a string service can do: write the string's bytes, and fault if it does not end. -/
theorem putString_cases (s : State) (bytesOf : Word → List Byte) :
    (stringEnds s.mem s.stringRoom (s.reg 0).toNat = true ∧
        s.putString bytesOf = s.emit (s.stringAtR0.flatMap bytesOf)) ∨
      (stringEnds s.mem s.stringRoom (s.reg 0).toNat = false ∧ s.putString bytesOf =
        (s.emit (s.stringAtR0.flatMap bytesOf)).raise (.stringOverrun (s.reg 0))) := by
  unfold State.putString
  cases h : stringEnds s.mem s.stringRoom (s.reg 0).toNat
  · exact .inr ⟨rfl, by simp⟩
  · exact .inl ⟨rfl, by simp⟩

/-! ### TRAP -/

/-- All TRAP can do: one of the six services by its vector, or nothing. -/
theorem trapService_cases (s : State) (vector : BitVec 8) :
    (vector = 0x20#8 ∧ s.trapService vector = s.finishGetc) ∨
      (vector = 0x21#8 ∧ s.trapService vector = s.serviceOut) ∨
      (vector = 0x22#8 ∧ s.trapService vector = s.servicePuts) ∨
      (vector = 0x23#8 ∧ s.trapService vector = s.serviceIn) ∨
      (vector = 0x24#8 ∧ s.trapService vector = s.servicePutsp) ∨
      (vector = 0x25#8 ∧ s.trapService vector = s.serviceHalt) ∨
      (vector ∉ serviceVectors ∧ s.trapService vector = s) := by
  unfold State.trapService serviceVectors
  split_ifs <;> simp_all

/-! ### What every service leaves alone (43_system.md R180) -/

@[simp] theorem finishGetc_pc (s : State) : s.finishGetc.pc = s.pc := by
  rcases finishGetc_cases s with ⟨_, h⟩ | ⟨_, _, _, h⟩ <;> simp [h]

@[simp] theorem finishGetc_cond (s : State) : s.finishGetc.cond = s.cond := by
  rcases finishGetc_cases s with ⟨_, h⟩ | ⟨_, _, _, h⟩ <;> simp [h]

@[simp] theorem finishGetc_mem (s : State) : s.finishGetc.mem = s.mem := by
  rcases finishGetc_cases s with ⟨_, h⟩ | ⟨_, _, _, h⟩ <;> simp [h]

@[simp] theorem finishGetc_running (s : State) : s.finishGetc.running = s.running := by
  rcases finishGetc_cases s with ⟨_, h⟩ | ⟨_, _, _, h⟩ <;> simp [h]

@[simp] theorem finishGetc_status (s : State) : s.finishGetc.status = s.status := by
  rcases finishGetc_cases s with ⟨_, h⟩ | ⟨_, _, _, h⟩ <;> simp [h]

@[simp] theorem finishGetc_output (s : State) : s.finishGetc.output = s.output := by
  rcases finishGetc_cases s with ⟨_, h⟩ | ⟨_, _, _, h⟩ <;> simp [h]

@[simp] theorem finishGetc_host (s : State) : s.finishGetc.host = s.host := by
  rcases finishGetc_cases s with ⟨_, h⟩ | ⟨_, _, _, h⟩ <;> simp [h]

@[simp] theorem finishIn_pc (s : State) : s.finishIn.pc = s.pc := by
  rcases finishIn_cases s with ⟨_, h⟩ | ⟨_, _, _, h⟩ <;> simp [h]

@[simp] theorem finishIn_cond (s : State) : s.finishIn.cond = s.cond := by
  rcases finishIn_cases s with ⟨_, h⟩ | ⟨_, _, _, h⟩ <;> simp [h]

@[simp] theorem finishIn_mem (s : State) : s.finishIn.mem = s.mem := by
  rcases finishIn_cases s with ⟨_, h⟩ | ⟨_, _, _, h⟩ <;> simp [h]

@[simp] theorem finishIn_running (s : State) : s.finishIn.running = s.running := by
  rcases finishIn_cases s with ⟨_, h⟩ | ⟨_, _, _, h⟩ <;> simp [h]

@[simp] theorem finishIn_status (s : State) : s.finishIn.status = s.status := by
  rcases finishIn_cases s with ⟨_, h⟩ | ⟨_, _, _, h⟩ <;> simp [h]

@[simp] theorem finishIn_host (s : State) : s.finishIn.host = s.host := by
  rcases finishIn_cases s with ⟨_, h⟩ | ⟨_, _, _, h⟩ <;> simp [h]

@[simp] theorem resume_running (s : State) (service : WaitService) :
    (s.resume service).running = s.running := by
  cases service <;> simp [State.resume]

@[simp] theorem putString_regs (s : State) (bytesOf : Word → List Byte) :
    (s.putString bytesOf).regs = s.regs := by
  rcases putString_cases s bytesOf with ⟨_, h⟩ | ⟨_, h⟩ <;> simp [h]

@[simp] theorem putString_pc (s : State) (bytesOf : Word → List Byte) :
    (s.putString bytesOf).pc = s.pc := by
  rcases putString_cases s bytesOf with ⟨_, h⟩ | ⟨_, h⟩ <;> simp [h]

@[simp] theorem putString_cond (s : State) (bytesOf : Word → List Byte) :
    (s.putString bytesOf).cond = s.cond := by
  rcases putString_cases s bytesOf with ⟨_, h⟩ | ⟨_, h⟩ <;> simp [h]

@[simp] theorem putString_mem (s : State) (bytesOf : Word → List Byte) :
    (s.putString bytesOf).mem = s.mem := by
  rcases putString_cases s bytesOf with ⟨_, h⟩ | ⟨_, h⟩ <;> simp [h]

@[simp] theorem putString_running (s : State) (bytesOf : Word → List Byte) :
    (s.putString bytesOf).running = s.running := by
  rcases putString_cases s bytesOf with ⟨_, h⟩ | ⟨_, h⟩ <;> simp [h]

@[simp] theorem putString_wait (s : State) (bytesOf : Word → List Byte) :
    (s.putString bytesOf).wait = s.wait := by
  rcases putString_cases s bytesOf with ⟨_, h⟩ | ⟨_, h⟩ <;> simp [h]

@[simp] theorem putString_input (s : State) (bytesOf : Word → List Byte) :
    (s.putString bytesOf).input = s.input := by
  rcases putString_cases s bytesOf with ⟨_, h⟩ | ⟨_, h⟩ <;> simp [h]

@[simp] theorem putString_host (s : State) (bytesOf : Word → List Byte) :
    (s.putString bytesOf).host = s.host := by
  rcases putString_cases s bytesOf with ⟨_, h⟩ | ⟨_, h⟩ <;> simp [h]

@[simp] theorem putString_output (s : State) (bytesOf : Word → List Byte) :
    (s.putString bytesOf).output = s.output ++ s.stringAtR0.flatMap bytesOf := by
  rcases putString_cases s bytesOf with ⟨_, h⟩ | ⟨_, h⟩ <;> simp [h]

@[simp] theorem trapService_pc (s : State) (vector : BitVec 8) :
    (s.trapService vector).pc = s.pc := by
  rcases trapService_cases s vector with ⟨_, h⟩ | ⟨_, h⟩ | ⟨_, h⟩ | ⟨_, h⟩ | ⟨_, h⟩ | ⟨_, h⟩ | ⟨_, h⟩ <;>
    rw [h] <;>
    simp [State.serviceOut, State.servicePuts, State.serviceIn, State.servicePutsp, State.serviceHalt]

@[simp] theorem trapService_cond (s : State) (vector : BitVec 8) :
    (s.trapService vector).cond = s.cond := by
  rcases trapService_cases s vector with ⟨_, h⟩ | ⟨_, h⟩ | ⟨_, h⟩ | ⟨_, h⟩ | ⟨_, h⟩ | ⟨_, h⟩ | ⟨_, h⟩ <;>
    rw [h] <;>
    simp [State.serviceOut, State.servicePuts, State.serviceIn, State.servicePutsp, State.serviceHalt]

@[simp] theorem trapService_mem (s : State) (vector : BitVec 8) :
    (s.trapService vector).mem = s.mem := by
  rcases trapService_cases s vector with ⟨_, h⟩ | ⟨_, h⟩ | ⟨_, h⟩ | ⟨_, h⟩ | ⟨_, h⟩ | ⟨_, h⟩ | ⟨_, h⟩ <;>
    rw [h] <;>
    simp [State.serviceOut, State.servicePuts, State.serviceIn, State.servicePutsp, State.serviceHalt]

@[simp] theorem trapService_host (s : State) (vector : BitVec 8) :
    (s.trapService vector).host = s.host := by
  rcases trapService_cases s vector with ⟨_, h⟩ | ⟨_, h⟩ | ⟨_, h⟩ | ⟨_, h⟩ | ⟨_, h⟩ | ⟨_, h⟩ | ⟨_, h⟩ <;>
    rw [h] <;>
    simp [State.serviceOut, State.servicePuts, State.serviceIn, State.servicePutsp, State.serviceHalt]

/-- GETC and IN change no register but R0. -/
theorem finishGetc_reg_other (s : State) {r : Reg} (h : r ≠ 0) : s.finishGetc.reg r = s.reg r := by
  rcases finishGetc_cases s with ⟨_, e⟩ | ⟨x, _, _, e⟩ <;> rw [e]
  · rfl
  · exact setReg_reg_other s (charWord x) h.symm

theorem finishIn_reg_other (s : State) {r : Reg} (h : r ≠ 0) : s.finishIn.reg r = s.reg r := by
  rcases finishIn_cases s with ⟨_, e⟩ | ⟨x, _, _, e⟩ <;> rw [e]
  · rfl
  · exact setReg_reg_other (s.emit [lowByte (charWord x)]) (charWord x) h.symm

end Sys2Proof.Machine
end

