-- ==== Sys2Proof/Laws/Exec.lean ====
section
/-! SUPPORT. Every instruction answers a next state, and which one: the inversion of `exec`. -/

namespace Sys2Proof.Machine

/-- The state an instruction leaves: every meaning answers a next state, so this is all `exec` can do. -/
def execState (i : Instr) (s : State) : State :=
  match exec i s with
  | .next t => t
  | .fault _ => s
  | .refused _ => s

/-- `exec` always answers a next state (60_exceptions.md R213). -/
theorem exec_eq_next (i : Instr) (s : State) : exec i s = .next (execState i s) := by
  cases i <;> rfl

/-- The inversion of `exec`: the next state is `execState`. -/
theorem exec_next_iff (i : Instr) (s t : State) : exec i s = .next t ↔ t = execState i s := by
  rw [exec_eq_next, Host.Outcome.next.injEq]
  exact eq_comm

theorem exec_ne_fault (i : Instr) (s : State) (f : Fault) : exec i s ≠ .fault f := by
  rw [exec_eq_next]
  nofun

theorem exec_ne_refused (i : Instr) (s : State) (r : Refusal) : exec i s ≠ .refused r := by
  rw [exec_eq_next]
  nofun

end Sys2Proof.Machine
end

