-- ==== Sys2Proof/Laws/Fields.lean ====
section
/-! SUPPORT. The fields COND and `host` pass through the shared operations untouched: an operation on a
state with another COND, or another schedule, does the same and leaves that field as it found it. -/

namespace Sys2Proof.Machine

/-! ### Another `cond` -/

/-- The state with another `cond`. -/
def State.withCond (s : State) (x : BitVec 3) : State := { s with cond := x }

@[simp] theorem withCond_regs (s : State) (x : BitVec 3) :
    (s.withCond x).regs = s.regs := rfl

@[simp] theorem withCond_pc (s : State) (x : BitVec 3) :
    (s.withCond x).pc = s.pc := rfl

@[simp] theorem withCond_cond (s : State) (x : BitVec 3) :
    (s.withCond x).cond = x := rfl

@[simp] theorem withCond_mem (s : State) (x : BitVec 3) :
    (s.withCond x).mem = s.mem := rfl

@[simp] theorem withCond_running (s : State) (x : BitVec 3) :
    (s.withCond x).running = s.running := rfl

@[simp] theorem withCond_status (s : State) (x : BitVec 3) :
    (s.withCond x).status = s.status := rfl

@[simp] theorem withCond_wait (s : State) (x : BitVec 3) :
    (s.withCond x).wait = s.wait := rfl

@[simp] theorem withCond_input (s : State) (x : BitVec 3) :
    (s.withCond x).input = s.input := rfl

@[simp] theorem withCond_output (s : State) (x : BitVec 3) :
    (s.withCond x).output = s.output := rfl

@[simp] theorem withCond_host (s : State) (x : BitVec 3) :
    (s.withCond x).host = s.host := rfl

@[simp] theorem withCond_reg (s : State) (x : BitVec 3) (r : Reg) :
    (s.withCond x).reg r = s.reg r := rfl

@[simp] theorem withCond_arrayRead (s : State) (x : BitVec 3) (a : Word) :
    (s.withCond x).arrayRead a = s.arrayRead a := rfl

theorem withCond_hostRead (s : State) (x : BitVec 3) :
    (s.withCond x).hostRead = s.hostRead.map fun p => (p.1, p.2.withCond x) := by
  unfold State.hostRead
  cases h : s.input <;> simp [h, State.withCond]

theorem withCond_pollKeyboard (s : State) (x : BitVec 3) :
    (s.withCond x).pollKeyboard = (s.pollKeyboard).withCond x := by
  unfold State.pollKeyboard
  rw [withCond_hostRead]
  cases s.hostRead <;> rfl

theorem withCond_intercept (s : State) (x : BitVec 3) (a : Word) :
    (s.withCond x).intercept a = (s.intercept a).withCond x := by
  unfold State.intercept
  split
  · exact withCond_pollKeyboard s x
  · rfl

theorem withCond_memRead_fst (s : State) (x : BitVec 3) (a : Word) :
    ((s.withCond x).memRead a).1 = (s.memRead a).1 := by
  rw [memRead_fst, memRead_fst, withCond_intercept, withCond_arrayRead]

theorem withCond_finishGetc (s : State) (x : BitVec 3) :
    (s.withCond x).finishGetc = (s.finishGetc).withCond x := by
  unfold State.finishGetc
  rw [withCond_hostRead]
  cases s.hostRead <;> rfl

theorem withCond_finishIn (s : State) (x : BitVec 3) :
    (s.withCond x).finishIn = (s.finishIn).withCond x := by
  unfold State.finishIn
  rw [withCond_hostRead]
  cases s.hostRead <;> rfl

theorem withCond_putString (s : State) (x : BitVec 3) (bytesOf : Word → List Byte) :
    (s.withCond x).putString bytesOf = (s.putString bytesOf).withCond x := by
  have room : (s.withCond x).stringRoom = s.stringRoom := rfl
  unfold State.putString
  rw [withCond_mem, withCond_reg, room]
  cases stringEnds s.mem s.stringRoom (s.reg 0).toNat <;> rfl

theorem withCond_trapService (s : State) (x : BitVec 3) (vector : BitVec 8) :
    (s.withCond x).trapService vector = (s.trapService vector).withCond x := by
  unfold State.trapService
  split_ifs
  · exact withCond_finishGetc s x
  · rfl
  · exact withCond_putString s x putsBytes
  · exact withCond_finishIn (s.emit Config.inPrompt) x
  · exact withCond_putString s x putspBytes
  · rfl
  · rfl

/-! ### Another `host` -/

/-- The state with another `host`. -/
def State.withHost (s : State) (x : List (List HostEvent)) : State := { s with host := x }

@[simp] theorem withHost_regs (s : State) (x : List (List HostEvent)) :
    (s.withHost x).regs = s.regs := rfl

@[simp] theorem withHost_pc (s : State) (x : List (List HostEvent)) :
    (s.withHost x).pc = s.pc := rfl

@[simp] theorem withHost_cond (s : State) (x : List (List HostEvent)) :
    (s.withHost x).cond = s.cond := rfl

@[simp] theorem withHost_mem (s : State) (x : List (List HostEvent)) :
    (s.withHost x).mem = s.mem := rfl

@[simp] theorem withHost_running (s : State) (x : List (List HostEvent)) :
    (s.withHost x).running = s.running := rfl

@[simp] theorem withHost_status (s : State) (x : List (List HostEvent)) :
    (s.withHost x).status = s.status := rfl

@[simp] theorem withHost_wait (s : State) (x : List (List HostEvent)) :
    (s.withHost x).wait = s.wait := rfl

@[simp] theorem withHost_input (s : State) (x : List (List HostEvent)) :
    (s.withHost x).input = s.input := rfl

@[simp] theorem withHost_output (s : State) (x : List (List HostEvent)) :
    (s.withHost x).output = s.output := rfl

@[simp] theorem withHost_host (s : State) (x : List (List HostEvent)) :
    (s.withHost x).host = x := rfl

@[simp] theorem withHost_reg (s : State) (x : List (List HostEvent)) (r : Reg) :
    (s.withHost x).reg r = s.reg r := rfl

@[simp] theorem withHost_arrayRead (s : State) (x : List (List HostEvent)) (a : Word) :
    (s.withHost x).arrayRead a = s.arrayRead a := rfl

theorem withHost_hostRead (s : State) (x : List (List HostEvent)) :
    (s.withHost x).hostRead = s.hostRead.map fun p => (p.1, p.2.withHost x) := by
  unfold State.hostRead
  cases h : s.input <;> simp [h, State.withHost]

theorem withHost_pollKeyboard (s : State) (x : List (List HostEvent)) :
    (s.withHost x).pollKeyboard = (s.pollKeyboard).withHost x := by
  unfold State.pollKeyboard
  rw [withHost_hostRead]
  cases s.hostRead <;> rfl

theorem withHost_intercept (s : State) (x : List (List HostEvent)) (a : Word) :
    (s.withHost x).intercept a = (s.intercept a).withHost x := by
  unfold State.intercept
  split
  · exact withHost_pollKeyboard s x
  · rfl

theorem withHost_memRead_fst (s : State) (x : List (List HostEvent)) (a : Word) :
    ((s.withHost x).memRead a).1 = (s.memRead a).1 := by
  rw [memRead_fst, memRead_fst, withHost_intercept, withHost_arrayRead]

theorem withHost_finishGetc (s : State) (x : List (List HostEvent)) :
    (s.withHost x).finishGetc = (s.finishGetc).withHost x := by
  unfold State.finishGetc
  rw [withHost_hostRead]
  cases s.hostRead <;> rfl

theorem withHost_finishIn (s : State) (x : List (List HostEvent)) :
    (s.withHost x).finishIn = (s.finishIn).withHost x := by
  unfold State.finishIn
  rw [withHost_hostRead]
  cases s.hostRead <;> rfl

theorem withHost_putString (s : State) (x : List (List HostEvent)) (bytesOf : Word → List Byte) :
    (s.withHost x).putString bytesOf = (s.putString bytesOf).withHost x := by
  have room : (s.withHost x).stringRoom = s.stringRoom := rfl
  unfold State.putString
  rw [withHost_mem, withHost_reg, room]
  cases stringEnds s.mem s.stringRoom (s.reg 0).toNat <;> rfl

theorem withHost_trapService (s : State) (x : List (List HostEvent)) (vector : BitVec 8) :
    (s.withHost x).trapService vector = (s.trapService vector).withHost x := by
  unfold State.trapService
  split_ifs
  · exact withHost_finishGetc s x
  · rfl
  · exact withHost_putString s x putsBytes
  · exact withHost_finishIn (s.emit Config.inPrompt) x
  · exact withHost_putString s x putspBytes
  · rfl
  · rfl

@[simp] theorem withCond_pcRelative {n : Nat} (s : State) (x : BitVec 3) (offset : BitVec n) :
    (s.withCond x).pcRelative offset = s.pcRelative offset := rfl

@[simp] theorem withCond_baseOffset (s : State) (x : BitVec 3) (base : Reg) (offset6 : BitVec 6) :
    (s.withCond x).baseOffset base offset6 = s.baseOffset base offset6 := rfl

theorem withCond_indirect_fst (s : State) (x : BitVec 3) (offset9 : BitVec 9) :
    ((s.withCond x).indirect offset9).1 = (s.indirect offset9).1 :=
  withCond_memRead_fst s x (s.pcRelative offset9)

theorem withCond_indirect_snd (s : State) (x : BitVec 3) (offset9 : BitVec 9) :
    ((s.withCond x).indirect offset9).2 = (s.indirect offset9).2.withCond x :=
  withCond_intercept s x (s.pcRelative offset9)

theorem withCond_loadFrom (s : State) (x : BitVec 3) (dst : Reg) (ea : Word) :
    (s.withCond x).loadFrom dst ea = (s.loadFrom dst ea) := by
  unfold State.loadFrom
  rw [withCond_memRead_fst, memRead_snd, memRead_snd, withCond_intercept]
  rfl

@[simp] theorem withHost_pcRelative {n : Nat} (s : State) (x : List (List HostEvent)) (offset : BitVec n) :
    (s.withHost x).pcRelative offset = s.pcRelative offset := rfl

@[simp] theorem withHost_baseOffset (s : State) (x : List (List HostEvent)) (base : Reg) (offset6 : BitVec 6) :
    (s.withHost x).baseOffset base offset6 = s.baseOffset base offset6 := rfl

theorem withHost_indirect_fst (s : State) (x : List (List HostEvent)) (offset9 : BitVec 9) :
    ((s.withHost x).indirect offset9).1 = (s.indirect offset9).1 :=
  withHost_memRead_fst s x (s.pcRelative offset9)

theorem withHost_indirect_snd (s : State) (x : List (List HostEvent)) (offset9 : BitVec 9) :
    ((s.withHost x).indirect offset9).2 = (s.indirect offset9).2.withHost x :=
  withHost_intercept s x (s.pcRelative offset9)

theorem withHost_loadFrom (s : State) (x : List (List HostEvent)) (dst : Reg) (ea : Word) :
    (s.withHost x).loadFrom dst ea = (s.loadFrom dst ea).withHost x := by
  unfold State.loadFrom
  rw [withHost_memRead_fst, memRead_snd, memRead_snd, withHost_intercept]
  rfl

end Sys2Proof.Machine
end

