-- ==== Sys2Proof/Laws/Flags.lean ====
section
/-! SUPPORT. The laws of the flag update: its three values exclude each other. -/

namespace Sys2Proof.Machine

/-- `setcc` gives one of three cases, told apart by the result's bit 15 and its zero test. -/
theorem condCode_cases (v : Word) :
    (v.msb = true ∧ condCode v = condNeg) ∨ (v = 0#16 ∧ condCode v = condZro) ∨
      (v.msb = false ∧ v ≠ 0#16 ∧ condCode v = condPos) := by
  unfold condCode
  cases hm : v.msb
  · by_cases hz : v = 0#16 <;> simp [hz]
  · exact .inl ⟨rfl, by simp⟩

theorem condCode_legal (v : Word) :
    condCode v = condNeg ∨ condCode v = condZro ∨ condCode v = condPos := by
  rcases condCode_cases v with h | h | h
  · exact .inl h.2
  · exact .inr (.inl h.2)
  · exact .inr (.inr h.2.2)

end Sys2Proof.Machine
end

