-- ==== Sys2Proof/Laws/Operands.lean ====
section
/-! SUPPORT. The bytes of a Word and the Word of two bytes, as numbers and as widths. -/

namespace Sys2Proof.Machine

theorem lowByte_toNat (v : Word) : (lowByte v).toNat = v.toNat % 256 := by
  simp [lowByte]

theorem highByte_toNat (v : Word) : (highByte v).toNat = v.toNat / 256 := by
  have := v.isLt
  simp only [highByte, BitVec.extractLsb'_toNat, Nat.shiftRight_eq_div_pow]
  omega

theorem lowByte_eq_setWidth (v : Word) : lowByte v = v.setWidth 8 :=
  BitVec.eq_of_toNat_eq (by rw [lowByte_toNat, BitVec.toNat_setWidth])

theorem highByte_eq_setWidth (v : Word) : highByte v = (v >>> 8).setWidth 8 := by
  apply BitVec.eq_of_toNat_eq
  have := v.isLt
  simp only [highByte_toNat, BitVec.toNat_setWidth, BitVec.toNat_ushiftRight,
    Nat.shiftRight_eq_div_pow]
  omega

theorem wordOfBytes_toNat (hi lo : Byte) : (wordOfBytes hi lo).toNat = hi.toNat * 256 + lo.toNat := by
  rw [wordOfBytes, BitVec.toNat_append, ← Nat.shiftLeft_add_eq_or_of_lt lo.isLt, Nat.shiftLeft_eq]

end Sys2Proof.Machine
end

