-- ==== Sys2Proof/Laws/PerInstr.lean ====
section
/-! SUPPORT. Facts about every instruction, one lemma per constructor. Family RowFits: the Word an
instruction is encoded as holds the fixed bits of its own row of spec/opcode_table.json. -/

namespace Sys2Proof.Laws.RowFits

/-- The encoded Word holds the fixed bits of the instruction's row (30_encoding.md R81, R82). -/
def Statement (i : Instr) : Prop := i.row.fits (encode i) = true

/-- A row fits a Word when each of its fixed fields, as a number, has its value. -/
theorem fits_iff (r : Row) (w : Word) :
    r.fits w = true ↔ ∀ f ∈ r.fixed, w.toNat / 2 ^ f.lo % 2 ^ f.len = f.value := by
  simp only [Row.fits, List.all_eq_true, beq_iff_eq, field_toNat]

theorem addReg (dst src1 src2 : Reg) : Statement (.addReg dst src1 src2) := by
  unfold Statement
  rw [fits_iff]
  simp [Instr.row, encode, wordRegReg_toNat, lowRegister_toNat]
  omega

theorem addImm (dst src1 : Reg) (imm5 : BitVec 5) : Statement (.addImm dst src1 imm5) := by
  unfold Statement
  rw [fits_iff]
  simp [Instr.row, encode, wordRegReg_toNat, lowImmediate_toNat]
  omega

theorem andReg (dst src1 src2 : Reg) : Statement (.andReg dst src1 src2) := by
  unfold Statement
  rw [fits_iff]
  simp [Instr.row, encode, wordRegReg_toNat, lowRegister_toNat]
  omega

theorem andImm (dst src1 : Reg) (imm5 : BitVec 5) : Statement (.andImm dst src1 imm5) := by
  unfold Statement
  rw [fits_iff]
  simp [Instr.row, encode, wordRegReg_toNat, lowImmediate_toNat]
  omega

theorem not (dst src : Reg) : Statement (.not dst src) := by
  unfold Statement
  rw [fits_iff]
  simp [Instr.row, opcodeRow, encode, wordRegReg_toNat]
  omega

theorem br (mask : BitVec 3) (offset9 : BitVec 9) : Statement (.br mask offset9) := by
  unfold Statement
  rw [fits_iff]
  simp [Instr.row, opcodeRow, encode, wordMask_toNat]
  omega

theorem jmp (base : Reg) : Statement (.jmp base) := by
  unfold Statement
  rw [fits_iff]
  simp [Instr.row, opcodeRow, encode, wordRegReg_toNat]
  omega

theorem ret : Statement .ret := by
  unfold Statement
  decide

theorem jsr (offset11 : BitVec 11) : Statement (.jsr offset11) := by
  unfold Statement
  rw [fits_iff]
  simp [Instr.row, encode, wordFlag_toNat]
  omega

theorem jsrr (base : Reg) : Statement (.jsrr base) := by
  unfold Statement
  rw [fits_iff]
  simp [Instr.row, encode, wordRegReg_toNat]
  omega

theorem ld (dst : Reg) (offset9 : BitVec 9) : Statement (.ld dst offset9) := by
  unfold Statement
  rw [fits_iff]
  simp [Instr.row, opcodeRow, encode, wordReg_toNat]
  omega

theorem ldi (dst : Reg) (offset9 : BitVec 9) : Statement (.ldi dst offset9) := by
  unfold Statement
  rw [fits_iff]
  simp [Instr.row, opcodeRow, encode, wordReg_toNat]
  omega

theorem lea (dst : Reg) (offset9 : BitVec 9) : Statement (.lea dst offset9) := by
  unfold Statement
  rw [fits_iff]
  simp [Instr.row, opcodeRow, encode, wordReg_toNat]
  omega

theorem st (src : Reg) (offset9 : BitVec 9) : Statement (.st src offset9) := by
  unfold Statement
  rw [fits_iff]
  simp [Instr.row, opcodeRow, encode, wordReg_toNat]
  omega

theorem sti (src : Reg) (offset9 : BitVec 9) : Statement (.sti src offset9) := by
  unfold Statement
  rw [fits_iff]
  simp [Instr.row, opcodeRow, encode, wordReg_toNat]
  omega

theorem ldr (dst base : Reg) (offset6 : BitVec 6) : Statement (.ldr dst base offset6) := by
  unfold Statement
  rw [fits_iff]
  simp [Instr.row, opcodeRow, encode, wordRegReg_toNat]
  omega

theorem str (src base : Reg) (offset6 : BitVec 6) : Statement (.str src base offset6) := by
  unfold Statement
  rw [fits_iff]
  simp [Instr.row, opcodeRow, encode, wordRegReg_toNat]
  omega

theorem trap (vector : BitVec 8) : Statement (.trap vector) := by
  unfold Statement
  rw [fits_iff]
  simp [Instr.row, opcodeRow, encode, wordVector_toNat]
  omega

theorem getc : Statement .getc := by
  unfold Statement
  decide

theorem out : Statement .out := by
  unfold Statement
  decide

theorem puts : Statement .puts := by
  unfold Statement
  decide

theorem inChar : Statement .inChar := by
  unfold Statement
  decide

theorem putsp : Statement .putsp := by
  unfold Statement
  decide

theorem halt : Statement .halt := by
  unfold Statement
  decide

theorem rti (low : BitVec 12) : Statement (.rti low) := by
  unfold Statement
  rw [fits_iff]
  simp [Instr.row, opcodeRow, encode, wordLow_toNat]
  omega

theorem res (low : BitVec 12) : Statement (.res low) := by
  unfold Statement
  rw [fits_iff]
  simp [Instr.row, opcodeRow, encode, wordLow_toNat]
  omega

end Sys2Proof.Laws.RowFits
end

