-- ==== Sys2Proof/Tests/Slice0.lean ====
section
/-! SUPPORT. Tests. Every expected value is one of 95_test_vectors.md (its section is named) or is worked
out from a rule by hand. The second half shows, for each statement of Certificates/Slice0/Obligations.lean
that has hypotheses, a concrete state and operands that meet them together. -/

namespace Sys2Proof.Tests

open Sys2Proof Sys2Proof.Machine

/-- A running machine with the given PC, COND, registers, memory and available input. -/
def machine (pc : Word) (cond : BitVec 3) (regs : List (Reg × Word)) (mem : Memory)
    (input : List HostChar) : State :=
  { regs.foldl (fun s rv => s.setReg rv.1 rv.2) State.reset with
    pc := pc, cond := cond, mem := mem, input := input, status := .running }

/-- The state a step leaves, if it leaves one. -/
def nextOf (s : State) : Option State :=
  match step s with
  | .next t => some t
  | .fault _ => none
  | .refused _ => none

/-- The state after the machine has run the Word `w`, placed at its PC, for one step. -/
def after (w : Nat) (s : State) : Option State := nextOf (s.withFetchWord 16 w)

/-- What a register-writing instruction leaves: a register, COND and PC. -/
def regCondPc (r : Reg) (t : State) : Word × BitVec 3 × Word := (t.reg r, t.cond, t.pc)

/-! ## Well-formedness: each check refuses an ill-formed term (30_encoding.md R86) -/

theorem test_jmp_base_seven_is_not_well_formed : (Instr.jmp 7).wellFormed = false := by decide

theorem test_service_vectors_are_not_well_formed :
    ∀ v ∈ [0x20#8, 0x21#8, 0x22#8, 0x23#8, 0x24#8, 0x25#8], (Instr.trap v).wellFormed = false := by
  decide

theorem test_neighbours_of_the_service_vectors_are_well_formed :
    (Instr.trap 0x1F#8).wellFormed = true ∧ (Instr.trap 0x26#8).wellFormed = true ∧
      (Instr.jmp 6).wellFormed = true := by decide

/-! ## Decoding: a Word written out for every constructor (30_encoding.md R82; L2.3 to L2.11) -/

theorem test_decode_operate :
    decode 0b0001_011_001_0_00_010#16 = .addReg 3 1 2 ∧
    decode 0b0001_111_110_0_00_101#16 = .addReg 7 6 5 ∧
    decode 0b0001_000_001_0_11_001#16 = .addReg 0 1 1 ∧
    decode 0b0001_000_001_1_00001#16 = .addImm 0 1 1#5 ∧
    decode 0b0001_010_010_1_11111#16 = .addImm 2 2 0x1F#5 ∧
    decode 0b0101_000_001_0_00_010#16 = .andReg 0 1 2 ∧
    decode 0b0101_000_001_1_10000#16 = .andImm 0 1 0x10#5 ∧
    decode 0b1001_110_101_111111#16 = .not 6 5 ∧
    decode 0b1001_000_000_000000#16 = .not 0 0 := by decide

theorem test_decode_control :
    decode 0x0000#16 = .br 0#3 0#9 ∧
    decode 0b0000_100_011111111#16 = .br 0b100#3 0xFF#9 ∧
    decode 0b1100_000_011_000000#16 = .jmp 3 ∧
    decode 0b1100_000_111_000000#16 = .ret ∧
    decode 0b1100_111_111_111111#16 = .ret ∧
    decode 0b0100_1_11111111111#16 = .jsr 0x7FF#11 ∧
    decode 0b0100_0_00_010_000000#16 = .jsrr 2 ∧
    decode 0b0100_0_11_111_111111#16 = .jsrr 7 := by decide

theorem test_decode_memory :
    decode 0b0010_000_000000100#16 = .ld 0 4#9 ∧
    decode 0b1010_000_000000001#16 = .ldi 0 1#9 ∧
    decode 0b0110_100_001_000000#16 = .ldr 4 1 0#6 ∧
    decode 0b0110_011_000_111111#16 = .ldr 3 0 0x3F#6 ∧
    decode 0b1110_001_000001101#16 = .lea 1 13#9 ∧
    decode 0b0011_010_000000101#16 = .st 2 5#9 ∧
    decode 0b1011_110_000001001#16 = .sti 6 9#9 ∧
    decode 0b0111_101_101_011111#16 = .str 5 5 31#6 := by decide

theorem test_decode_system :
    decode 0b1111_0000_00100000#16 = .getc ∧
    decode 0b1111_0000_00100001#16 = .out ∧
    decode 0b1111_0000_00100010#16 = .puts ∧
    decode 0b1111_0000_00100011#16 = .inChar ∧
    decode 0b1111_0000_00100100#16 = .putsp ∧
    decode 0b1111_0001_00100101#16 = .halt ∧
    decode 0b1111_0000_00100110#16 = .trap 0x26#8 ∧
    decode 0b1000_111111111111#16 = .rti 0xFFF#12 ∧
    decode 0b1101_000000000000#16 = .res 0#12 := by decide

/-- 30_encoding.md R90: what an assembler writes for RET, GETC, HALT and in NOT's ignored bits. -/
theorem test_encode_aliases :
    encode .ret = 0xC1C0#16 ∧ encode .getc = 0xF020#16 ∧ encode .halt = 0xF025#16 ∧
      encode (.not 6 5) = 0x9D7F#16 := by decide

theorem test_decode_table_word :
    decodeTableWord 16 0xF025 = some .halt ∧ decodeTableWord 16 0x1061 = some (.addImm 0 1 1#5) := by
  decide

/-! ## Words and flags (L2.1, L2.2) -/

theorem test_sign_extension :
    sext 0x10#5 = 0xFFF0#16 ∧ sext 0x0F#5 = 0x000F#16 ∧ sext 0x20#6 = 0xFFE0#16 ∧
      sext 0x100#9 = 0xFF00#16 ∧ sext 0x3FF#11 = 0x03FF#16 ∧ sext 0x7FF#11 = 0xFFFF#16 ∧
      sext 0x1#1 = 0xFFFF#16 ∧ sext 0x8000#16 = 0x8000#16 := by decide

theorem test_setcc :
    condCode 0x0000#16 = 0b010#3 ∧ condCode 0x0001#16 = 0b001#3 ∧ condCode 0x7FFF#16 = 0b001#3 ∧
      condCode 0x8000#16 = 0b100#3 ∧ condCode 0xFFFF#16 = 0b100#3 := by decide

/-! ## Operate instructions, one step each (L2.3) -/

theorem test_add_register_wraps :
    (after 0x1642 (machine 0x3000 condZro [(1, 0x0003), (2, 0xFFFE)] [] [])).map (regCondPc 3) =
      some (0x0001#16, 0b001#3, 0x3001#16) := by decide

theorem test_add_register_onto_itself :
    (after 0x1241 (machine 0x3000 condZro [(1, 0x4000)] [] [])).map (regCondPc 1) =
      some (0x8000#16, 0b100#3, 0x3001#16) := by decide

/-- L1.2, the source's own. -/
theorem test_add_immediate_to_zero :
    (after 0x1061 (machine 0x3000 condPos [(1, 0xFFFF)] [] [])).map (regCondPc 0) =
      some (0x0000#16, 0b010#3, 0x3001#16) := by decide

theorem test_add_immediate_negative :
    (after 0x14BF (machine 0x3000 condZro [] [] [])).map (regCondPc 2) =
      some (0xFFFF#16, 0b100#3, 0x3001#16) := by decide

theorem test_and_register :
    (after 0x5042 (machine 0x3000 condZro [(1, 0xF0F0), (2, 0x8F00)] [] [])).map (regCondPc 0) =
      some (0x8000#16, 0b100#3, 0x3001#16) := by decide

theorem test_and_immediate_clears :
    (after 0x56E0 (machine 0x3000 condNeg [(3, 0xABCD)] [] [])).map (regCondPc 3) =
      some (0x0000#16, 0b010#3, 0x3001#16) := by decide

theorem test_and_immediate_negative_keeps_high_bits :
    (after 0x5070 (machine 0x3000 condZro [(1, 0xABCD)] [] [])).map (regCondPc 0) =
      some (0xABC0#16, 0b100#3, 0x3001#16) := by decide

theorem test_not :
    (after 0x903F (machine 0x3000 condZro [(0, 0x5555)] [] [])).map (regCondPc 0) =
      some (0xAAAA#16, 0b100#3, 0x3001#16) := by decide

theorem test_not_ignores_low_bits :
    (after 0x9000 (machine 0x3000 condZro [(0, 0x0001)] [] [])).map (regCondPc 0) =
      some (0xFFFE#16, 0b100#3, 0x3001#16) := by decide

/-! ## Control transfer (L2.4, L2.5) -/

/-- The whole table of L2.4: which masks branch under NEG, ZRO and POS. -/
theorem test_br_table :
    ∀ row ∈ [(0x0002, 0, 0, 0), (0x0202, 0, 0, 1), (0x0402, 0, 1, 0), (0x0602, 0, 1, 1),
        (0x0802, 1, 0, 0), (0x0A02, 1, 0, 1), (0x0C02, 1, 1, 0), (0x0E02, 1, 1, 1)],
      ∀ c ∈ [(condNeg, row.2.1), (condZro, row.2.2.1), (condPos, row.2.2.2)],
        (after row.1 (machine 0x3000 c.1 [] [] [])).map State.pc =
          some (if c.2 = 1 then 0x3003#16 else 0x3001#16) := by decide

theorem test_br_wraps :
    (after 0x0500 (machine 0x0000 condZro [] [] [])).map State.pc = some 0xFF01#16 ∧
      (after 0x0201 (machine 0xFFFF condPos [] [] [])).map State.pc = some 0x0001#16 := by decide

theorem test_jmp :
    (after 0xC0C0 (machine 0x3000 condNeg [(3, 0x4000), (7, 0x1111)] [] [])).map (regCondPc 7) =
      some (0x1111#16, 0b100#3, 0x4000#16) := by decide

theorem test_ret :
    (after 0xC1C0 (machine 0x3009 condNeg [(7, 0x3002)] [] [])).map (regCondPc 7) =
      some (0x3002#16, 0b100#3, 0x3002#16) := by decide

theorem test_jsr :
    (after 0x4804 (machine 0x3001 condNeg [(7, 0x9999)] [] [])).map (regCondPc 7) =
      some (0x3002#16, 0b100#3, 0x3006#16) := by decide

theorem test_jsr_wraps :
    (after 0x4BFF (machine 0xFFFF condZro [] [] [])).map (regCondPc 7) =
      some (0x0000#16, 0b010#3, 0x03FF#16) := by decide

theorem test_jsrr :
    (after 0x4080 (machine 0x3003 condZro [(2, 0x3006)] [] [])).map (regCondPc 7) =
      some (0x3004#16, 0b010#3, 0x3006#16) := by decide

theorem test_jsrr_seven_goes_to_its_own_return :
    (after 0x41C0 (machine 0x3003 condZro [(7, 0x5000)] [] [])).map (regCondPc 7) =
      some (0x3004#16, 0b010#3, 0x3004#16) := by decide

/-! ## Loads, LEA, stores (L2.6, L2.7) -/

theorem test_ld :
    (after 0x2004 (machine 0x3000 condZro [] [(0x3005, 0x0041)] [])).map (regCondPc 0) =
      some (0x0041#16, 0b001#3, 0x3001#16) := by decide

theorem test_ld_reads_its_own_word :
    (after 0x23FF (machine 0x3000 condZro [] [] [])).map (regCondPc 1) =
      some (0x23FF#16, 0b001#3, 0x3001#16) := by decide

/-- L1.3, the source's own, in the spec's reading A. -/
theorem test_ldi :
    (after 0xA001 (machine 0x3000 condZro [] [(0x3002, 0x4000), (0x4000, 0x1234)] [])).map
      (regCondPc 0) = some (0x1234#16, 0b001#3, 0x3001#16) := by decide

theorem test_ldr_into_its_base :
    (after 0x6260 (machine 0x3000 condNeg [(1, 0x4020)] [] [])).map (regCondPc 1) =
      some (0x0000#16, 0b010#3, 0x3001#16) := by decide

theorem test_ldr_wraps :
    (after 0x663F (machine 0x3000 condZro [] [(0xFFFF, 0x7777)] [])).map (regCondPc 3) =
      some (0x7777#16, 0b001#3, 0x3001#16) := by decide

theorem test_lea :
    (after 0xE20D (machine 0x3000 condZro [] [] [])).map (regCondPc 1) =
      some (0x300E#16, 0b001#3, 0x3001#16) := by decide

theorem test_lea_negative_address :
    (after 0xE500 (machine 0x8100 condZro [] [] [])).map (regCondPc 2) =
      some (0x8001#16, 0b100#3, 0x8101#16) := by decide

theorem test_st :
    (after 0x3405 (machine 0x3000 condNeg [(2, 0xBEEF)] [] [])).map
      (fun t => (t.arrayRead 0x3006, t.cond)) = some (0xBEEF#16, 0b100#3) := by decide

theorem test_sti :
    (after 0xBC09 (machine 0x300B condNeg [(6, 0x7FFF)] [(0x3015, 0x4000)] [])).map
      (fun t => (t.arrayRead 0x4000, t.arrayRead 0x3015, t.cond)) =
        some (0x7FFF#16, 0x4000#16, 0b100#3) := by decide

theorem test_str_stores_its_base :
    (after 0x7B5F (machine 0x3000 condZro [(5, 0x1000)] [] [])).map
      (fun t => (t.arrayRead 0x101F, t.reg 5)) = some (0x1000#16, 0x1000#16) := by decide

/-- A store of 0x0000 removes the cell, so that equal memories are equal data. -/
theorem test_store_of_zero_is_not_listed :
    (machine 0x3000 condZro [] [(0x4000, 0x0007)] []).memWrite 0x4000 0x0000#16 =
      machine 0x3000 condZro [] [] [] := by decide

/-! ## The keyboard (L2.8) -/

/-- LDI R1 of the Word at 0x3001, here a pointer to 0xFE00. -/
theorem test_poll_with_nothing_available :
    (after 0xA200 (machine 0x3000 condPos [] [(0x3001, 0xFE00), (0xFE00, 0x1234)] [])).map
      (fun t => (t.reg 1, t.cond, t.arrayRead 0xFE00, t.arrayRead 0xFE02)) =
        some (0x0000#16, 0b010#3, 0x0000#16, 0x0000#16) := by decide

theorem test_poll_with_a_character :
    (after 0xA200 (machine 0x3000 condPos [] [(0x3001, 0xFE00)] [.char 0x61, .char 0x62])).map
      (fun t => (t.reg 1, t.cond, t.arrayRead 0xFE02, t.input)) =
        some (0x8000#16, 0b100#3, 0x0061#16, [.char 0x62]) := by decide

theorem test_poll_at_end_of_stream :
    (after 0xA200 (machine 0x3000 condPos [] [(0x3001, 0xFE00)] [.eof])).map
      (fun t => (t.reg 1, t.arrayRead 0xFE02, t.input)) = some (0x8000#16, 0xFFFF#16, []) := by decide

theorem test_data_address_does_not_poll :
    (after 0xA200 (machine 0x3000 condPos [] [(0x3001, 0xFE02), (0xFE02, 0x0041)] [.char 0x61])).map
      (fun t => (t.reg 1, t.input)) = some (0x0041#16, [.char 0x61]) := by decide

/-- A fetch from 0xFE00 polls: the fetched Word is 0x8000, so the machine faults at 0xFE00. -/
theorem test_fetch_from_the_status_address :
    (nextOf (machine 0xFE00 condZro [] [] [.char 0x41])).map
      (fun t => (t.status, t.arrayRead 0xFE02, t.pc)) =
        some (.faulted (.unsupported 0xFE00 0x8000), 0x0041#16, 0xFE01#16) := by decide

/-- STI whose pointer is at 0xFE00: the poll finds nothing, so the store goes to 0x0000. -/
theorem test_sti_through_the_status_address :
    (after 0xB000 (machine 0xFDFF condZro [(0, 0x5555)] [(0xFE00, 0x1234)] [])).map
      (fun t => (t.arrayRead 0x0000, t.arrayRead 0xFE00)) = some (0x5555#16, 0x0000#16) := by decide

/-! ## TRAP services (L2.10) -/

theorem test_getc :
    (after 0xF020 (machine 0x3000 condNeg [(0, 0xABCD)] [] [.char 0x78])).map
      (fun t => (t.reg 0, t.cond, t.output, t.input)) =
        some (0x0078#16, 0b100#3, [], []) := by decide

theorem test_getc_at_end_of_stream :
    (after 0xF020 (machine 0x3000 condNeg [] [] [.eof])).map (fun t => t.reg 0) =
      some 0xFFFF#16 := by decide

theorem test_out :
    (after 0xF021 (machine 0x3000 condZro [(0, 0x0141)] [] [])).map (fun t => (t.output, t.reg 0)) =
      some ([0x41#8], 0x0141#16) := by decide

theorem test_puts :
    (after 0xF022 (machine 0x3000 condZro [(0, 0x4000)] [(0x4000, 0x0148), (0x4001, 0x0069)] [])).map
      (fun t => (t.output, t.reg 0, t.status)) =
        some ([0x48#8, 0x69#8], 0x4000#16, .running) := by decide

theorem test_puts_overruns :
    (after 0xF022 (machine 0x3000 condZro [(0, 0xFFFF)] [(0xFFFF, 0x0041)] [])).map
      (fun t => (t.output, t.status)) =
        some ([0x41#8], .faulted (.stringOverrun 0xFFFF)) := by decide

theorem test_in :
    (after 0xF023 (machine 0x3000 condNeg [(0, 0xABCD)] [] [.char 0x71])).map
      (fun t => (t.output, t.reg 0, t.cond)) =
        some (Config.inPrompt ++ [0x71#8], 0x0071#16, 0b100#3) := by rfl

theorem test_in_at_end_of_stream :
    (after 0xF023 (machine 0x3000 condZro [] [] [.eof])).map (fun t => (t.output, t.reg 0)) =
      some (Config.inPrompt ++ [0xFF#8], 0xFFFF#16) := by rfl

theorem test_putsp :
    (after 0xF024 (machine 0x3000 condZro [(0, 0x4000)] [(0x4000, 0x6548), (0x4001, 0x0079)] [])).map
      (fun t => (t.output, t.reg 0)) = some ([0x48#8, 0x65#8, 0x79#8], 0x4000#16) := by decide

theorem test_putsp_zero_low_byte :
    (after 0xF024 (machine 0x3000 condZro [(0, 0x4000)] [(0x4000, 0x4100)] [])).map State.output =
      some [0x00#8, 0x41#8] := by decide

theorem test_halt :
    (after 0xF125 (machine 0x3000 condNeg [] [] [])).map
      (fun t => (t.output, t.running, t.status, t.pc)) =
        some (Config.haltNotice, false, .running, 0x3001#16) := by rfl

theorem test_unrecognised_vector :
    (after 0xF026 (machine 0x3000 condNeg [(0, 0x0041), (7, 0x1111)] [] [.char 0x61])).map
      (fun t => (t.regs, t.cond, t.pc, t.input, t.output)) =
        some ((machine 0x3000 condNeg [(0, 0x0041), (7, 0x1111)] [] []).regs, 0b100#3, 0x3001#16,
          [.char 0x61], []) := by decide

/-! ## RTI and RES (L1.4) -/

theorem test_rti :
    (after 0x8FFF State.reset).map (fun t => (t.status, t.pc)) =
      some (.faulted (.unsupported 0x3000 0x8FFF), 0x3001#16) := by decide

theorem test_res :
    (after 0xD000 State.reset).map (fun t => (t.status, t.pc)) =
      some (.faulted (.unsupported 0x3000 0xD000), 0x3001#16) := by decide

/-! ## The cycle, the host and the loader (L1.1, L2.9, L2.12) -/

theorem test_request_while_loaded_runs_nothing :
    (nextOf { State.reset with host := [[.interrupt]] }).map (fun t => (t.status, t.pc)) =
      some (.halted, 0x3000#16) := by decide

/-- A request does not end the wait of GETC: the answer that comes with it is still read. -/
theorem test_request_while_getc_waits :
    (nextOf { machine 0x3001 condNeg [] [] [] with
        wait := some .getc, host := [[.interrupt, .deliver (.char 0x61)]] }).map
      (fun t => (t.reg 0, t.cond, t.running, t.wait, t.status)) =
        some (0x0061#16, 0b100#3, false, none, .running) := by decide

theorem test_getc_without_an_answer_waits :
    (after 0xF020 (machine 0x3000 condZro [(0, 0xABCD)] [] [])).map
      (fun t => (t.reg 0, t.wait, t.pc)) = some (0xABCD#16, some .getc, 0x3001#16) := by decide

theorem test_load :
    loadImage [0x30, 0x00, 0x12, 0x34, 0xAB, 0xCD] [] = some [(0x3000, 0x1234), (0x3001, 0xABCD)] := by
  decide

theorem test_load_edges :
    loadImage [0xFF, 0xFF, 0x00, 0x01, 0x00, 0x02] [] = some [(0xFFFF, 0x0001)] ∧
      loadImage [0x30, 0x00, 0x12, 0x34, 0x56] [] = some [(0x3000, 0x1234)] ∧
      loadImage [0x30] [] = none := by decide

theorem test_later_image_wins :
    loadImages [[0x30, 0x00, 0x11, 0x11, 0x22, 0x22], [0x30, 0x01, 0x33, 0x33]] [] =
      some [(0x3000, 0x1111), (0x3001, 0x3333)] := by decide

/-! ## Witnesses: states and operands that meet the hypotheses of the statements -/

theorem test_witness_DecodeOfEncodeIsTheInstruction : ∀ i ∈ instrSamples, i.wellFormed = true := by
  decide

theorem test_witness_IgnoredBitsDoNotChangeTheInstruction :
    (0x1059#16 &&& (decode 0x1041#16).examined = 0x1041#16 &&& (decode 0x1041#16).examined) ∧
      ((0x8FFF#16 : Word).extractLsb' 12 4).toNat = 8 ∧
      ((0xD000#16 : Word).extractLsb' 12 4).toNat = 13 := by decide

theorem test_witness_UnsupportedExactlyForTwoOpcodes :
    State.reset.Safe ∧ ∀ w : Word, ∃ t, exec (decode w) State.reset = .next t :=
  ⟨nofun, fun w => ⟨_, exec_eq_next (decode w) State.reset⟩⟩

theorem test_witness_ExtensionFollowsItsFormula :
    (1 ≤ 1 ∧ 1 ≤ 16) ∧ (1 ≤ 16 ∧ 16 ≤ 16) ∧ sext ((sext 0x100#9).setWidth 9 : BitVec 9) = 0xFF00#16 := by
  decide

theorem test_witness_AndWritesTheBitwiseAnd : 0 < 16 ∧ 4 < 16 ∧ 5 < 16 ∧ 15 < 16 := by decide

theorem test_witness_NotWritesTheComplement : 0 < 16 ∧ 15 < 16 := by decide

theorem test_witness_CondWrittenByExactlyTheFlagDefining :
    (∃ t, exec (.addReg 3 1 2) State.reset = .next t) ∧
      (Instr.addReg 3 1 2).flagDst = some 3 ∧
      (∃ t, exec .getc State.reset = .next t) ∧ Instr.getc.flagDst = none :=
  ⟨⟨_, rfl⟩, rfl, ⟨_, rfl⟩, rfl⟩

theorem test_witness_CondReadOnlyByBranch :
    (∀ mask offset9, Instr.jsr 4#11 ≠ .br mask offset9) ∧
      (∃ t, exec (.jsr 4#11) State.reset = .next t) ∧ (Instr.jsr 4#11).flagDst = none ∧
      (∀ mask offset9, Instr.lea 1 4#9 ≠ .br mask offset9) ∧
      (∃ t, exec (.lea 1 4#9) State.reset = .next t) ∧ (Instr.lea 1 4#9).flagDst ≠ none :=
  ⟨nofun, ⟨_, rfl⟩, rfl, nofun, ⟨_, rfl⟩, nofun⟩

theorem test_witness_BrMaskBitsTestTheirFlags :
    (machine 0x3000 condNeg [] [] []).CondLegal ∧ (machine 0x3000 condZro [] [] []).CondLegal ∧
      (machine 0x3000 condPos [] [] []).CondLegal := by decide

/-- The four clauses of `MemReadEffect`, with the addresses just below and above 0xFE00. -/
theorem test_witness_MemReadPollsOnlyTheStatusAddress :
    0xFDFF#16 ≠ Config.kbsr ∧ 0xFE01#16 ≠ Config.kbsr ∧ 0xFE02#16 ≠ Config.kbsr ∧
      0xFE00#16 = Config.kbsr ∧ State.reset.input = [] ∧
      (machine 0x3000 condZro [] [] [.char 0xFF, .eof]).input = [.char 0xFF, .eof] ∧
      (machine 0x3000 condZro [] [] [.eof]).input = [.eof] := by decide

/-- LD, LDR and LDI reach all four clauses: here each reads 0xFE00 with a character available. -/
theorem test_witness_LdAndLdrLoadTheirAddress :
    (machine 0xFDFF condZro [] [] []).pc + BitVec.ofInt 16 (1#9).toInt = Config.kbsr ∧
      (machine 0x3000 condZro [(1, 0xFE00)] [] []).reg 1 + BitVec.ofInt 16 (0#6).toInt = Config.kbsr := by
  decide

theorem test_witness_LdiReadsThroughItsPointer :
    ((machine 0x3000 condZro [] [(0x3001, 0xFE00)] []).memRead
      ((machine 0x3000 condZro [] [] []).pc + BitVec.ofInt 16 (1#9).toInt)).1 = Config.kbsr := by decide

theorem test_witness_SecondStatusReadFindsNothing :
    (machine 0x3000 condZro [] [] [.char 0x61]).input = [.char 0x61] := by decide

/-- An instruction that stores, one that polls, and one that does neither. -/
theorem test_witness_MemoryChangesOnlyByStoreOrPoll :
    (∃ t, exec (.st 0 0#9) State.reset = .next t) ∧
      (Instr.st 0 0#9).storeAddr State.reset ≠ some 0x3001#16 ∧
      (∃ t, exec (.ldr 0 1 0#6) (machine 0x3000 condZro [(1, 0xFE00)] [] []) = .next t) ∧
      Config.kbsr ∈ (Instr.ldr 0 1 0#6).memReads (machine 0x3000 condZro [(1, 0xFE00)] [] []) ∧
      0xFE01#16 ≠ Config.kbsr ∧ 0xFE01#16 ≠ Config.kbdr ∧
      (∃ t, exec .out State.reset = .next t) ∧ Instr.out.storeAddr State.reset ≠ some 0xFE00#16 ∧
      Config.kbsr ∉ Instr.out.memReads State.reset :=
  ⟨⟨_, rfl⟩, by decide, ⟨_, rfl⟩, by decide, by decide, by decide, ⟨_, rfl⟩, by decide, by decide⟩

theorem test_witness_MemoriesThatReadAlikeAreEqual :
    Memory.Wf [(0, 0x0001#16), (0xFFFF, 0x8000#16)] ∧
      ∀ a, a < 65536 → Memory.read [(0, 0x0001#16), (0xFFFF, 0x8000#16)] a =
        Memory.read [(0, 0x0001#16), (0xFFFF, 0x8000#16)] a :=
  ⟨by decide, fun _ _ => rfl⟩

theorem test_witness_GetcReadsOneCharacter_InPromptsReadsAndEchoes :
    (machine 0x3000 condZro [] [] [.char 0xFF]).input = HostChar.char 0xFF :: [] ∧
      (machine 0x3000 condZro [] [] [.eof, .char 0]).input = HostChar.eof :: [.char 0] := by decide

theorem test_witness_GetcAndInWaitWithoutAnAnswer : State.reset.input = [] := by decide

/-- A running machine whose R0 points to a two-Word string that 0xFFFF ends. -/
def topString : State :=
  machine 0x3000 condZro [(0, 0xFFFD)] [(0xFFFD, 0x0100), (0xFFFE, 0x4100)] []

/-- Strings of no Word and of two, the second ending at 0xFFFF. -/
theorem test_witness_PutsWritesTheString_PutspWritesThePackedString :
    ((State.reset.reg 0).toNat + 0 < 65536 ∧ (∀ v ∈ State.reset.wordsAtR0 0, v ≠ 0#16) ∧
      State.reset.arrayRead (State.reset.reg 0 + BitVec.ofNat 16 0) = 0#16) ∧
    ((topString.reg 0).toNat + 2 < 65536 ∧ (∀ v ∈ topString.wordsAtR0 2, v ≠ 0#16) ∧
      topString.arrayRead (topString.reg 0 + BitVec.ofNat 16 2) = 0#16) := by
  have start : topString.reg 0 = 0xFFFD#16 := by decide
  have words : topString.wordsAtR0 2 = [0x0100#16, 0x4100#16] := by decide
  refine ⟨⟨(State.reset.reg 0).isLt, nofun, by decide⟩, ?_, ?_, ?_⟩
  · rw [start]; exact (by omega : 65533 + 2 < 65536)
  · rw [words]; simp
  · rw [start]; decide

theorem test_witness_StringPastTheTopOverruns :
    ∀ a : Word, (machine 0x3000 condZro [(0, 0xFFFF)] [(0xFFFF, 0x0041)] []).reg 0 ≤ a →
      (machine 0x3000 condZro [(0, 0xFFFF)] [(0xFFFF, 0x0041)] []).arrayRead a ≠ 0#16 := by
  intro a h
  have h : (0xFFFF#16 : Word) ≤ a := h
  obtain rfl : a = 0xFFFF#16 := by bv_omega
  decide

/-- The source's own image, L1.1. -/
theorem test_witness_HaltWritesTheNoticeAndStops :
    (machine 0x3000 condZro [] [(0x3000, 0xF025)] []).Ready ∧
      (machine 0x3000 condZro [] [(0x3000, 0xF025)] []).pc ≠ Config.kbsr ∧
      (machine 0x3000 condZro [] [(0x3000, 0xF025)] []).arrayRead 0x3000#16 = 0xF025#16 := by decide

theorem test_witness_UnrecognisedVectorsHaveNoEffect :
    ((0x00#8).toNat < 0x20 ∨ 0x25 < (0x00#8).toNat) ∧ ((0x1F#8).toNat < 0x20 ∨ 0x25 < (0x1F#8).toNat) ∧
      ((0x26#8).toNat < 0x20 ∨ 0x25 < (0x26#8).toNat) ∧
      ((0xFF#8).toNat < 0x20 ∨ 0x25 < (0xFF#8).toNat) := by decide

theorem test_witness_TrapSavesNothing :
    (∃ vector, Instr.trap 0x80#8 = .trap vector) ∧ (∃ t, exec (.trap 0x80#8) State.reset = .next t) ∧
      Instr.halt ∈ [Instr.getc, .out, .puts, .inChar, .putsp, .halt] ∧
      (∃ t, exec .halt State.reset = .next t) :=
  ⟨⟨_, rfl⟩, ⟨_, rfl⟩, by decide, ⟨_, rfl⟩⟩

theorem test_witness_RegistersWritten_HostStreams :
    (∃ t, exec (.jsr 4#11) State.reset = .next t) ∧
      (∃ t, exec .puts State.reset = .next t) ∧ Instr.getc.writesOutput = false ∧
      Instr.out.readsHost = false ∧ Config.kbsr ∉ Instr.out.memReads State.reset :=
  ⟨⟨_, rfl⟩, ⟨_, exec_eq_next .puts State.reset⟩, rfl, rfl, by decide⟩

theorem test_witness_PcChangedOnlyByControlTransfer :
    (Instr.ld 0 4#9).transfersControl = false ∧ ∃ t, exec (.ld 0 4#9) State.reset = .next t :=
  ⟨rfl, _, rfl⟩

/-- Loaded and running, at 0xFFFF and, for the first clause, at 0xFE00. -/
theorem test_witness_StepRunsTheDecodedInstruction :
    State.reset.Ready ∧ (machine 0xFE00 condZro [] [] []).Ready ∧
      (machine 0xFFFF condZro [] [(0xFFFF, 0x1021)] []).Ready ∧
      (Instr.addImm 0 0 1#5).wellFormed = true ∧
      (machine 0xFFFF condZro [] [(0xFFFF, 0x1021)] []).pc ≠ Config.kbsr ∧
      decode ((machine 0xFFFF condZro [] [(0xFFFF, 0x1021)] []).arrayRead 0xFFFF#16) =
        .addImm 0 0 1#5 := by decide

theorem test_witness_ClearedRunningHaltsAtTheTop :
    State.reset.status = .loaded ∧ State.reset.wait = none ∧
      ({ State.reset with host := [[.interrupt]] } : State).hostTurn.running = false ∧
      ({ machine 0x3000 condZro [] [] [] with running := false } : State).hostTurn.running = false ∧
      (machine 0x3000 condZro [] [] []).status = .running := by decide

theorem test_witness_HaltedAndFaultedAreTerminal :
    ({ State.reset with status := .halted } : State).status = .halted ∧
      ({ State.reset with status := .faulted (.stringOverrun 0x4000) } : State).status =
        .faulted (.stringOverrun 0x4000) := by decide

theorem test_witness_StepFaultsExactlyWhenFaulted : State.reset.Safe := nofun

theorem test_witness_UnsupportedWordEndsTheRun :
    (machine 0x3000 condZro [] [(0x3000, 0x8FFF)] []).Ready ∧
      (machine 0x3000 condZro [] [(0x3000, 0x8FFF)] []).pc ≠ Config.kbsr ∧
      ((machine 0x3000 condZro [] [(0x3000, 0x8FFF)] []).arrayRead 0x3000#16).extractLsb' 12 4 =
        0b1000#4 ∧
      ((machine 0x3000 condZro [] [(0x3000, 0xD000)] []).arrayRead 0x3000#16).extractLsb' 12 4 =
        0b1101#4 := by decide

/-- One state for each clause: stopped already, stopped by a request, stopped by a fetched HALT. -/
theorem test_witness_RunningOnceFalseStaysFalse :
    (∃ t, step { State.reset with running := false } = .next t) ∧
      (State.reset.running = true ∧
        ({ State.reset with host := [[.interrupt]] } : State).hostTurn.running = false ∧
        ∃ t, step { State.reset with host := [[.interrupt]] } = .next t) ∧
      (machine 0x3000 condZro [] [(0x3000, 0xF025)] []).hostTurn.running = true ∧
      ∃ t, step (machine 0x3000 condZro [] [(0x3000, 0xF025)] []) = .next t ∧ t.running = false :=
  ⟨⟨_, rfl⟩, ⟨rfl, rfl, _, rfl⟩, rfl, _, rfl, rfl⟩

theorem test_witness_HostTouchesOnlyInputAndRunning :
    ({ State.reset with host := [[.deliver .eof, .interrupt], []] } : State).host =
      [.deliver .eof, .interrupt] :: [[]] := by decide

theorem test_witness_WaitingStepDoesNothing :
    ({ machine 0x3001 condZro [] [] [] with wait := some .inChar } : State).status = .running ∧
      ({ machine 0x3001 condZro [] [] [] with wait := some .inChar } : State).wait ≠ none ∧
      ({ machine 0x3001 condZro [] [] [] with wait := some .inChar } : State).hostTurn.input = [] := by
  decide

/-- A running machine that waits inside IN, with `q` available. -/
def waitingInIn : State :=
  { machine 0x3001 condZro [] [] [.char 0x71] with wait := some .inChar }

/-- A running machine that waits inside GETC, with Running State cleared and end of stream to come. -/
def stoppedInGetc : State :=
  { machine 0x3001 condZro [] [] [] with
    wait := some .getc, running := false, host := [[.deliver .eof]] }

/-- The answer with Running State set, and with it cleared. -/
theorem test_witness_InterruptedReadFinishesThenHalts :
    (waitingInIn.status = .running ∧ waitingInIn.wait = some .inChar ∧
      waitingInIn.hostTurn.input = HostChar.char 0x71 :: [] ∧ waitingInIn.hostTurn.running = true) ∧
    (stoppedInGetc.status = .running ∧ stoppedInGetc.wait = some .getc ∧
      stoppedInGetc.hostTurn.input = HostChar.eof :: [] ∧ stoppedInGetc.hostTurn.running = false) := by
  decide

/-- The ordinary end of a wait: IN echoes and the machine runs on. -/
theorem test_in_finishes_when_answered :
    (nextOf waitingInIn).map (fun t => (t.reg 0, t.output, t.wait, t.running, t.pc)) =
      some (0x0071#16, [0x71#8], none, true, 0x3001#16) := by decide

/-- A running machine at 0x3001 whose STI pointer at 0x3002 is 0x3001 itself. -/
def stiOntoNext : State := machine 0x3001 condZro [(0, 0xF025)] [(0x3002, 0x3001)] []

theorem test_witness_StoredWordRunsNext :
    (Instr.st 0 0#9).storeAddr stiOntoNext = some 0x3001#16 ∧
      (Instr.sti 0 1#9).storeAddr stiOntoNext = some 0x3001#16 ∧
      stiOntoNext.pc = 0x3001#16 ∧ stiOntoNext.pc ≠ Config.kbsr ∧ stiOntoNext.Ready ∧
      (Instr.str 0 1 31#6).storeAddr (machine 0x3001 condZro [(1, 0x2FE2)] [] []) = some 0x3001#16 ∧
      (machine 0x3001 condZro [(1, 0x2FE2)] [] []).Ready := by decide

theorem test_witness_LaterHostEventsDoNotMatter :
    State.reset.status = .loaded ∧
      ∃ t, step { State.reset with host := [.deliver .eof] :: [] } = .next t :=
  ⟨rfl, _, rfl⟩

theorem test_witness_StepKeepsTheInvariant : State.reset.Inv ∧ ∃ t, step State.reset = .next t :=
  ⟨⟨by decide, by decide, by decide, by decide⟩, _, rfl⟩

/-- L1.1, the source's own image. -/
theorem test_witness_BootedMachineStartsAtPcStart :
    State.boot [[0x30, 0x00, 0xF0, 0x25]] = some { State.reset with mem := [(0x3000, 0xF025)] } := by
  decide

theorem test_witness_LoadedImageReadsBack :
    (0x30#8).toNat * 256 + (0x00#8).toNat ≤ 0x3001 ∧ 0x3001 ≤ 0xFFFF ∧
      2 * (0x3001 - 0x3000) + 1 < [0x12#8, 0x34#8, 0xAB#8, 0xCD#8].length := by decide

end Sys2Proof.Tests
end

section
/-! Sign and zero extension (00_scope.md R9) of a field of at most 16 bits, and O7. -/

namespace Sys2Proof.Machine

section Extension

variable {n : Nat}

theorem sext_toInt (f : BitVec n) (hn : n ≤ 16) : (sext f).toInt = f.toInt :=
  BitVec.toInt_signExtend_of_le hn

theorem zext_toNat (f : BitVec n) (hn : n ≤ 16) : (zext f).toNat = f.toNat :=
  BitVec.toNat_setWidth_of_le hn

/-- Bit by bit: the field's own bits, and above them its sign. -/
theorem sext_getElem (f : BitVec n) {i : Nat} (hi : i < 16) :
    (sext f)[i] = if h : i < n then f[i] else f.msb :=
  BitVec.getElem_signExtend hi

/-- The low `n` bits of an extended field are the field. -/
theorem setWidth_sext (f : BitVec n) (hn : n ≤ 16) : (sext f).setWidth n = f := by
  ext i hi
  have hi16 : i < 16 := Nat.lt_of_lt_of_le hi hn
  rw [BitVec.getElem_setWidth, BitVec.getLsbD_eq_getElem hi16, sext_getElem f hi16, dif_pos hi]

theorem sext_of_msb_false (f : BitVec n) (hf : f.msb = false) : sext f = f.setWidth 16 :=
  BitVec.signExtend_eq_setWidth_of_msb_false hf

/-- The mask `0xFFFF << n` has exactly the bits from `n` up. -/
theorem signMask_getElem {i : Nat} (hi : i < 16) : (0xFFFF#16 <<< n)[i] = !decide (i < n) := by
  have hones : 0xFFFF#16 = BitVec.allOnes 16 := rfl
  rw [hones, BitVec.getElem_shiftLeft hi, BitVec.getElem_allOnes, Bool.and_true]

/-- A set sign: below bit `n` the mask adds nothing to the field, from bit `n` up it gives the ones. -/
theorem sext_of_msb_true (f : BitVec n) (hf : f.msb = true) :
    sext f = f.setWidth 16 ||| (0xFFFF#16 <<< n) := by
  ext i hi
  rw [sext_getElem f hi, BitVec.getElem_or, signMask_getElem hi, BitVec.getElem_setWidth]
  by_cases hin : i < n
  · simp [hin]
  · simp [hin, hf]

/-- R9's formula, for every width; the sign of a field is its bit `n - 1`. -/
theorem sext_eq_ite (f : BitVec n) :
    sext f =
      if f.getLsbD (n - 1) then f.setWidth 16 ||| (0xFFFF#16 <<< n) else f.setWidth 16 := by
  rw [← BitVec.msb_eq_getLsbD_last]
  split
  case isTrue hf => exact sext_of_msb_true f hf
  case isFalse hf => exact sext_of_msb_false f (Bool.eq_false_of_not_eq_true hf)

end Extension

/-- Settles O7: R9's formula by the two signs, the signed value, and idempotence because the low `n`
bits of an extended field are the field again. -/
theorem extensionFollowsItsFormula : Obligations.ExtensionFollowsItsFormula := by
  intro n f _ hn
  exact ⟨sext_eq_ite f, sext_toInt f hn, congrArg sext (setWidth_sext f hn), zext_toNat f hn⟩

end Sys2Proof.Machine
end

section
/-! What one instruction can do, said once: the inversion of `execState` by the kind of instruction, and
what it means for each field of the state. Then O8, O9, O41 and O42. -/

namespace Sys2Proof

/-- The vector of a TRAP, of the general row or of a service's row (43_system.md R181). -/
def Instr.trapVector : Instr → Option (BitVec 8)
  | .trap vector => some vector
  | .getc => some 0x20#8
  | .out => some 0x21#8
  | .puts => some 0x22#8
  | .inChar => some 0x23#8
  | .putsp => some 0x24#8
  | .halt => some 0x25#8
  | _ => none

/-- A flag-defining instruction may write its destination and no other register. -/
theorem writtenRegs_of_flagDst {i : Instr} {dst : Reg} (h : i.flagDst = some dst) :
    i.writtenRegs = [dst] := by
  cases i <;> cases h <;> rfl

theorem flagDst_of_trapVector {i : Instr} {vector : BitVec 8} (h : i.trapVector = some vector) :
    i.flagDst = none := by
  cases i <;> cases h <;> rfl

theorem writtenRegs_of_trapVector {i : Instr} {vector : BitVec 8} (h : i.trapVector = some vector) :
    i.writtenRegs = (Instr.trap vector).writtenRegs := by
  cases i <;> cases h <;> rfl

theorem eq_halt_of_trapVector {i : Instr} (h : i.trapVector = some 0x25#8) :
    i = .halt ∨ i = .trap 0x25#8 := by
  cases i with
  | trap vector => exact .inr (congrArg Instr.trap (Option.some.inj h))
  | halt => exact .inl rfl
  | getc | out | puts | inChar | putsp => exact absurd h (by decide)
  | _ => cases h

end Sys2Proof

namespace Sys2Proof.Machine

/-! ### The state after `MemRead`s -/

/-- A `MemRead` keeps everything but memory and the input (20_memory.md R53). -/
theorem intercept_eq (s : State) (a : Word) :
    s.intercept a = { s with mem := (s.intercept a).mem, input := (s.intercept a).input } := by
  unfold State.intercept
  split
  · rcases pollKeyboard_cases s with ⟨_, h⟩ | ⟨_, _, _, h⟩ <;> rw [h] <;> rfl
  · rfl

/-- `u` is `s` after some `MemRead`s. -/
inductive AfterReads (s : State) : State → Prop
  | refl : AfterReads s s
  | read {u : State} (a : Word) (h : AfterReads s u) : AfterReads s (u.intercept a)

theorem AfterReads.eq {s u : State} (h : AfterReads s u) :
    u = { s with mem := u.mem, input := u.input } := by
  induction h with
  | refl => rfl
  | read a _ ih =>
    rw [intercept_eq, ih]

theorem AfterReads.pc {s u : State} (h : AfterReads s u) : u.pc = s.pc := by
  rw [h.eq]

theorem AfterReads.cond {s u : State} (h : AfterReads s u) : u.cond = s.cond := by
  rw [h.eq]

theorem AfterReads.running {s u : State} (h : AfterReads s u) : u.running = s.running := by
  rw [h.eq]

theorem AfterReads.status {s u : State} (h : AfterReads s u) : u.status = s.status := by
  rw [h.eq]

theorem AfterReads.reg {s u : State} (h : AfterReads s u) (r : Reg) : u.reg r = s.reg r := by
  rw [h.eq]
  rfl

theorem AfterReads.mem_wf {s u : State} (h : AfterReads s u) (hs : s.mem.Wf) : u.mem.Wf := by
  induction h with
  | refl => exact hs
  | read a _ ih => exact intercept_wf ih a

/-! ### The meanings the proofs below rewrite by -/

theorem execState_br (mask : BitVec 3) (offset9 : BitVec 9) (s : State) :
    execState (.br mask offset9) s =
      if s.CondHolds mask then s.setPc (s.pcRelative offset9) else s := rfl

theorem execState_ldi (dst : Reg) (offset9 : BitVec 9) (s : State) :
    execState (.ldi dst offset9) s = (s.indirect offset9).2.loadFrom dst (s.indirect offset9).1 := rfl

theorem execState_sti (src : Reg) (offset9 : BitVec 9) (s : State) :
    execState (.sti src offset9) s =
      (s.indirect offset9).2.memWrite (s.indirect offset9).1 (s.reg src) := rfl

theorem execState_of_trapVector {i : Instr} {vector : BitVec 8} (hv : i.trapVector = some vector)
    (s : State) : execState i s = s.trapService vector := by
  cases i <;> cases hv <;> rfl

/-! ### The kinds of instruction -/

/-- What an instruction can leave of the state it meets, by its kind. -/
inductive ExecEffect (i : Instr) (s : State) : State → Prop
  /-- The flag-defining instructions: some reads, then the result and COND. -/
  | result {dst : Reg} {u : State} (v : Word) (dstOf : i.flagDst = some dst) (reads : AfterReads s u) :
      ExecEffect i s (u.writeResult dst v)
  /-- BR (not taken, the target is PC itself), JMP and RET. -/
  | jump (target : Word) (noFlags : i.flagDst = none) (transfers : i.transfersControl = true) :
      ExecEffect i s (s.setPc target)
  /-- JSR and JSRR: the link, then the jump. -/
  | call (target : Word) (noFlags : i.flagDst = none) (transfers : i.transfersControl = true)
      (link : i.writtenRegs = [7]) : ExecEffect i s ((s.setReg 7 s.pc).setPc target)
  /-- ST, STI and STR. -/
  | store {u : State} (a v : Word) (noFlags : i.flagDst = none) (reads : AfterReads s u) :
      ExecEffect i s (u.memWrite a v)
  /-- TRAP and the six services. -/
  | service {vector : BitVec 8} (vectorOf : i.trapVector = some vector) :
      ExecEffect i s (s.trapService vector)
  /-- RTI and RES. -/
  | unsupported (f : Fault) (noFlags : i.flagDst = none) : ExecEffect i s (s.raise f)

theorem execState_br_effect (mask : BitVec 3) (offset9 : BitVec 9) (s : State) :
    ExecEffect (.br mask offset9) s (execState (.br mask offset9) s) := by
  rw [execState_br]
  split
  · exact .jump _ rfl rfl
  · exact .jump s.pc rfl rfl

/-- The inversion of `execState`: what it leaves is the effect of the instruction's kind. -/
theorem execState_effect (i : Instr) (s : State) : ExecEffect i s (execState i s) := by
  cases i with
  | addReg | addImm | andReg | andImm | not | lea => exact .result _ rfl .refl
  | ld | ldr => exact .result _ rfl (.read _ .refl)
  | ldi => exact .result _ rfl (.read _ (.read _ .refl))
  | br mask offset9 => exact execState_br_effect mask offset9 s
  | jmp | ret => exact .jump _ rfl rfl
  | jsr | jsrr => exact .call _ rfl rfl rfl
  | st | str => exact .store _ _ rfl .refl
  | sti => exact .store _ _ rfl (.read _ .refl)
  | trap vector => exact .service (vector := vector) rfl
  | getc => exact .service (vector := 0x20#8) rfl
  | out => exact .service (vector := 0x21#8) rfl
  | puts => exact .service (vector := 0x22#8) rfl
  | inChar => exact .service (vector := 0x23#8) rfl
  | putsp => exact .service (vector := 0x24#8) rfl
  | halt => exact .service (vector := 0x25#8) rfl
  | rti | res => exact .unsupported _ rfl

/-! ### What a trap service leaves of the registers, Running State and the run status -/

theorem putString_reg (s : State) (bytesOf : Word → List Byte) (r : Reg) :
    (s.putString bytesOf).reg r = s.reg r := by
  simp [State.reg]

theorem trapService_reg (s : State) {vector : BitVec 8} {r : Reg}
    (hr : r ∉ (Instr.trap vector).writtenRegs) : (s.trapService vector).reg r = s.reg r := by
  rcases trapService_cases s vector with
    ⟨hv, h⟩ | ⟨_, h⟩ | ⟨_, h⟩ | ⟨hv, h⟩ | ⟨_, h⟩ | ⟨_, h⟩ | ⟨_, h⟩ <;> rw [h]
  · exact finishGetc_reg_other s (by simpa [Instr.writtenRegs, hv] using hr)
  · rfl
  · exact putString_reg s putsBytes r
  · exact finishIn_reg_other (s.emit Config.inPrompt) (by simpa [Instr.writtenRegs, hv] using hr)
  · exact putString_reg s putspBytes r
  · rfl

/-- HALT alone touches Running State (10_state.md R30). -/
theorem trapService_running (s : State) {vector : BitVec 8} (hv : vector ≠ 0x25#8) :
    (s.trapService vector).running = s.running := by
  rcases trapService_cases s vector with
    ⟨_, h⟩ | ⟨_, h⟩ | ⟨_, h⟩ | ⟨_, h⟩ | ⟨_, h⟩ | ⟨hhalt, _⟩ | ⟨_, h⟩
  · rw [h, finishGetc_running]
  · rw [h, State.serviceOut, emit_running]
  · rw [h, State.servicePuts, putString_running]
  · rw [h, State.serviceIn, finishIn_running, emit_running]
  · rw [h, State.servicePutsp, putString_running]
  · exact absurd hhalt hv
  · rw [h]

/-- A string service either keeps the run status or faults, and it never waits. -/
theorem putString_status (s : State) (bytesOf : Word → List Byte) :
    (s.putString bytesOf).status = s.status ∨
      (∃ f, (s.putString bytesOf).status = .faulted f) ∧ (s.putString bytesOf).wait = s.wait := by
  rcases putString_cases s bytesOf with ⟨_, h⟩ | ⟨_, h⟩ <;> rw [h]
  · exact .inl rfl
  · exact .inr ⟨⟨_, rfl⟩, rfl⟩

theorem trapService_status (s : State) (vector : BitVec 8) :
    (s.trapService vector).status = s.status ∨
      (∃ f, (s.trapService vector).status = .faulted f) ∧ (s.trapService vector).wait = s.wait := by
  rcases trapService_cases s vector with
    ⟨_, h⟩ | ⟨_, h⟩ | ⟨_, h⟩ | ⟨_, h⟩ | ⟨_, h⟩ | ⟨_, h⟩ | ⟨_, h⟩ <;> rw [h]
  · exact .inl (finishGetc_status s)
  · exact .inl rfl
  · exact putString_status s putsBytes
  · exact .inl (finishIn_status (s.emit Config.inPrompt))
  · exact putString_status s putspBytes
  · exact .inl rfl
  · exact .inl rfl

/-! ### What an instruction leaves of each field -/

theorem exec_effect {i : Instr} {s t : State} (h : exec i s = .next t) : ExecEffect i s t :=
  (exec_next_iff i s t).1 h ▸ execState_effect i s

section Fields

variable {i : Instr} {s t : State}

/-- 10_state.md R27, R28: a flag-defining instruction sets COND from what its destination then holds. -/
theorem ExecEffect.cond_of_flagDst {dst : Reg} (h : ExecEffect i s t) (hd : i.flagDst = some dst) :
    t.cond = condCode (t.reg dst) := by
  cases h with
  | result v dstOf _ =>
    obtain rfl := Option.some.inj (dstOf.symm.trans hd)
    rw [writeResult_cond, writeResult_reg_same]
  | jump _ noFlags | call _ noFlags | store _ _ noFlags | unsupported _ noFlags =>
    exact absurd (noFlags.symm.trans hd) nofun
  | service vectorOf => exact absurd ((flagDst_of_trapVector vectorOf).symm.trans hd) nofun

theorem ExecEffect.cond_of_flagDst_none (h : ExecEffect i s t) (hd : i.flagDst = none) :
    t.cond = s.cond := by
  cases h with
  | result _ dstOf => exact absurd (hd.symm.trans dstOf) nofun
  | store _ _ _ reads => exact reads.cond
  | service => exact trapService_cond s _
  | jump | call | unsupported => rfl

theorem ExecEffect.reg {r : Reg} (h : ExecEffect i s t) (hr : r ∉ i.writtenRegs) :
    t.reg r = s.reg r := by
  cases h with
  | result v dstOf reads =>
    rw [writtenRegs_of_flagDst dstOf, List.mem_singleton] at hr
    rw [writeResult_reg, if_neg (Ne.symm hr), reads.reg]
  | call _ _ _ link =>
    rw [link, List.mem_singleton] at hr
    rw [setPc_reg, setReg_reg_other _ _ (Ne.symm hr)]
  | store _ _ _ reads => exact reads.reg r
  | service vectorOf =>
    rw [writtenRegs_of_trapVector vectorOf] at hr
    exact trapService_reg s hr
  | jump | unsupported => rfl

theorem ExecEffect.pc (h : ExecEffect i s t) (hi : i.transfersControl = false) : t.pc = s.pc := by
  cases h with
  | result _ _ reads | store _ _ _ reads => exact reads.pc
  | jump _ _ transfers | call _ _ transfers => exact absurd (hi.symm.trans transfers) nofun
  | service => exact trapService_pc s _
  | unsupported => rfl

theorem ExecEffect.mem_wf (h : ExecEffect i s t) (hs : s.mem.Wf) : t.mem.Wf := by
  cases h with
  | result _ _ reads => exact reads.mem_wf hs
  | store a v _ reads => exact memWrite_wf (reads.mem_wf hs) a v
  | service =>
    rw [trapService_mem]
    exact hs
  | jump | call | unsupported => exact hs

/-- An instruction that changes the run status faults, and it does not start to wait as well. -/
theorem ExecEffect.status (h : ExecEffect i s t) :
    t.status = s.status ∨ (∃ f, t.status = .faulted f) ∧ t.wait = s.wait := by
  cases h with
  | result _ _ reads | store _ _ _ reads => exact .inl (reads.status)
  | service => exact trapService_status s _
  | jump | call => exact .inl rfl
  | unsupported f => exact .inr ⟨⟨f, rfl⟩, rfl⟩

/-- No instruction but HALT touches Running State (10_state.md R30). -/
theorem ExecEffect.running (h : ExecEffect i s t) :
    t.running = s.running ∨ i = .halt ∨ i = .trap 0x25#8 := by
  cases h with
  | result _ _ reads | store _ _ _ reads => exact .inl (reads.running)
  | @service vector vectorOf =>
    by_cases hv : vector = 0x25#8
    · exact .inr (eq_halt_of_trapVector (hv ▸ vectorOf))
    · exact .inl (trapService_running s hv)
  | jump | call | unsupported => exact .inl rfl

end Fields

/-! ### The three values of COND -/

theorem condCode_eq_condNeg_iff (v : Word) : condCode v = condNeg ↔ v.getLsbD 15 = true := by
  rw [← show v.msb = v.getLsbD 15 from BitVec.msb_eq_getLsbD_last v]
  rcases condCode_cases v with ⟨hm, hc⟩ | ⟨rfl, _⟩ | ⟨hm, _, hc⟩
  · simp [hm, hc]
  · decide
  · rw [hm, hc]
    decide

theorem condCode_eq_condZro_iff (v : Word) : condCode v = condZro ↔ v = 0#16 := by
  rcases condCode_cases v with ⟨hm, hc⟩ | ⟨hz, hc⟩ | ⟨_, hz, hc⟩
  · have hne : v ≠ 0#16 := by
      rintro rfl
      exact absurd hm (by decide)
    exact iff_of_false (hc ▸ by decide) hne
  · exact iff_of_true hc hz
  · exact iff_of_false (hc ▸ by decide) hz

/-- POS is the third of three values: neither NEG nor ZRO. -/
theorem condCode_eq_condPos_iff (v : Word) :
    condCode v = condPos ↔ v.getLsbD 15 = false ∧ v ≠ 0#16 := by
  rw [← Bool.not_eq_true, ← condCode_eq_condNeg_iff, Ne, ← condCode_eq_condZro_iff]
  rcases condCode_legal v with h | h | h <;> rw [h] <;> decide

/-! ### An instruction that meets another COND -/

theorem execState_withCond_of_flagDst {i : Instr} {dst : Reg} (hd : i.flagDst = some dst) (s : State)
    (c : BitVec 3) : execState i (s.withCond c) = execState i s := by
  cases i with
  | addReg | addImm | andReg | andImm | not | lea => rfl
  | ld dst offset9 => exact withCond_loadFrom s c dst (s.pcRelative offset9)
  | ldr dst base offset6 => exact withCond_loadFrom s c dst (s.baseOffset base offset6)
  | ldi dst offset9 =>
    rw [execState_ldi, execState_ldi, withCond_indirect_fst, withCond_indirect_snd, withCond_loadFrom]
  | _ => cases hd

theorem execState_withCond_of_trapVector {i : Instr} {vector : BitVec 8}
    (hv : i.trapVector = some vector) (s : State) (c : BitVec 3) :
    execState i (s.withCond c) = (execState i s).withCond c := by
  rw [execState_of_trapVector hv, execState_of_trapVector hv, withCond_trapService]

theorem execState_withCond_of_flagDst_none {i : Instr} (hbr : ∀ mask offset9, i ≠ .br mask offset9)
    (hd : i.flagDst = none) (s : State) (c : BitVec 3) :
    execState i (s.withCond c) = (execState i s).withCond c := by
  cases i with
  | br mask offset9 => exact absurd rfl (hbr mask offset9)
  | jmp | ret | jsr | jsrr | st | str | rti | res => rfl
  | sti src offset9 =>
    rw [execState_sti, execState_sti, withCond_indirect_fst, withCond_indirect_snd]
    rfl
  | trap | getc | out | puts | inChar | putsp | halt => exact execState_withCond_of_trapVector rfl s c
  | _ => cases hd

/-! ### O8, O9, O41, O42 -/

/-- Settles O8: COND is `condCode` of what the destination holds, whose three values say its sign. -/
theorem condWrittenByExactlyTheFlagDefining : Obligations.CondWrittenByExactlyTheFlagDefining := by
  intro i s t h
  have heffect := exec_effect h
  refine ⟨fun dst hd => ?_, heffect.cond_of_flagDst_none⟩
  rw [heffect.cond_of_flagDst hd]
  exact ⟨condCode_eq_condNeg_iff _, condCode_eq_condZro_iff _, condCode_eq_condPos_iff _⟩

/-- Settles O9: a flag-defining instruction overwrites COND, any other but BR passes it through. -/
theorem condReadOnlyByBranch : Obligations.CondReadOnlyByBranch := by
  intro i s t c hbr h
  obtain rfl := (exec_next_iff i s t).1 h
  refine ⟨execState i (s.withCond c), exec_eq_next i (s.withCond c), ?_⟩
  cases hd : i.flagDst with
  | some dst =>
    rw [execState_withCond_of_flagDst hd]
    exact ⟨rfl, fun _ => rfl, nofun⟩
  | none =>
    rw [execState_withCond_of_flagDst_none hbr hd]
    exact ⟨rfl, fun hne => absurd rfl hne, fun _ => rfl⟩

/-- Settles O41, by the kinds of instruction. -/
theorem registersWrittenAreTheTables : Obligations.RegistersWrittenAreTheTables :=
  fun _ _ _ h _ hr => (exec_effect h).reg hr

/-- Settles O42, by the kinds of instruction. -/
theorem pcChangedOnlyByControlTransfer : Obligations.PcChangedOnlyByControlTransfer :=
  fun _ _ _ hi h => (exec_effect h).pc hi

end Sys2Proof.Machine
end

section
/-! What one step can do, said once: the inversion of `step`, and with it the cycle's statements O44, O45,
O46 and O49. -/

namespace Sys2Proof

theorem decodeJmp_wellFormed (w : Word) : (decodeJmp w).wellFormed = true := by
  unfold decodeJmp
  split
  · rfl
  · next h => simpa [Instr.wellFormed] using h

theorem decodeJsr_wellFormed (w : Word) : (decodeJsr w).wellFormed = true := by
  unfold decodeJsr
  split <;> rfl

/-- Every Word decodes to a well-formed instruction (30_encoding.md R86). -/
theorem decode_wellFormed (w : Word) : (decode w).wellFormed = true := by
  unfold decode
  split
  case h_2 | h_6 => split <;> rfl
  case h_5 => exact decodeJsr_wellFormed w
  case h_13 => exact decodeJmp_wellFormed w
  case h_16 => exact decodeTrap_wellFormed _
  all_goals rfl

/-- HALT's vector decodes to HALT, never to the general TRAP. -/
theorem decode_ne_trap_halt (w : Word) : decode w ≠ .trap 0x25#8 := fun h =>
  absurd (h ▸ decode_wellFormed w) (by decide)

end Sys2Proof

namespace Sys2Proof.Machine

/-! ### The step by the run status -/

theorem step_of_halted {s : State} (h : s.status = .halted) : step s = .next s := by
  simp [step, turn, h]

theorem step_of_faulted {s : State} {f : Fault} (h : s.status = .faulted f) : step s = .fault f := by
  simp [step, turn, h]

theorem step_of_active {s : State} (h : s.status = .loaded ∨ s.status = .running) :
    step s = coreTurn s.hostTurn := by
  rcases h with h | h <;> simp [step, turn, h]

theorem step_of_waiting {s : State} (h : s.status = .loaded ∨ s.status = .running)
    {service : WaitService} (hw : s.wait = some service) :
    step s = .next (s.hostTurn.resume service) := by
  simp [step_of_active h, coreTurn, hw]

theorem step_of_cleared {s : State} (h : s.status = .loaded ∨ s.status = .running) (hw : s.wait = none)
    (hr : s.hostTurn.running = false) : step s = .next { s.hostTurn with status := .halted } := by
  simp [step_of_active h, coreTurn, cycle, hw, hr]

/-- The state a ready machine fetches from: after the host's moves, in status `Running`. -/
def State.cycleTop (s : State) : State := { s.hostTurn with status := .running }

/-- The Word a ready machine fetches (10_state.md R32). -/
def State.fetchedWord (s : State) : Word := (s.cycleTop.memRead s.pc).1

/-- The state a ready machine runs the fetched Word in: after the fetch and the increment (R24, R32). -/
def State.fetched (s : State) : State := (s.cycleTop.intercept s.pc).setPc (s.pc + 1#16)

theorem cycleTop_fetch (s : State) : s.cycleTop.fetch = (s.fetchedWord, s.fetched) := by
  have hpc : s.cycleTop.pc = s.pc := hostTurn_pc s
  rw [State.fetch, hpc]
  rfl

theorem step_of_ready {s : State} (h : s.Ready) : step s = exec (decode s.fetchedWord) s.fetched := by
  obtain ⟨hactive, hw, hr⟩ := h
  have hcycle : coreTurn s.hostTurn = exec (decode s.cycleTop.fetch.1) s.cycleTop.fetch.2 := by
    simp [coreTurn, cycle, hw, hr, State.cycleTop]
  rw [step_of_active hactive, hcycle, cycleTop_fetch]

/-- All a step that answers a next state can do. -/
inductive StepTo (s : State) : State → Prop
  | stay (halted : s.status = .halted) : StepTo s s
  | resume {service : WaitService} (active : s.status = .loaded ∨ s.status = .running)
      (waits : s.wait = some service) : StepTo s (s.hostTurn.resume service)
  | halt (waits : s.wait = none) (cleared : s.hostTurn.running = false) :
      StepTo s { s.hostTurn with status := .halted }
  | run (ready : s.Ready) : StepTo s (execState (decode s.fetchedWord) s.fetched)

/-- The inversion of `step`. -/
theorem stepTo_of_step {s t : State} (h : step s = .next t) : StepTo s t := by
  rcases step_cases s with ⟨hactive, _⟩ | ⟨hhalted, hs⟩ | ⟨f, _, hs⟩
  · cases hw : s.wait with
    | some service =>
      obtain rfl := Host.Outcome.next.inj ((step_of_waiting hactive hw).symm.trans h)
      exact .resume hactive hw
    | none =>
      cases hr : s.hostTurn.running with
      | false =>
        obtain rfl := Host.Outcome.next.inj ((step_of_cleared hactive hw hr).symm.trans h)
        exact .halt hw hr
      | true =>
        have hready : s.Ready := ⟨hactive, hw, hr⟩
        obtain rfl := (exec_next_iff _ _ _).1 ((step_of_ready hready).symm.trans h)
        exact .run hready
  · obtain rfl := Host.Outcome.next.inj (hs.symm.trans h)
    exact .stay hhalted
  · exact absurd (hs.symm.trans h) nofun

/-! ### The fetched Word and the state it runs in -/

/-- Away from 0xFE00 the fetch is a plain read (20_memory.md R52). -/
theorem fetchedWord_of_ne_kbsr {s : State} (h : s.pc ≠ Config.kbsr) :
    s.fetchedWord = s.arrayRead s.pc := by
  rw [State.fetchedWord, memRead_other _ h]
  exact hostTurn_arrayRead s s.pc

theorem fetched_of_ne_kbsr {s : State} (h : s.pc ≠ Config.kbsr) :
    s.fetched = { s.hostTurn with status := .running, pc := s.pc + 1#16 } := by
  rw [State.fetched, intercept_other _ h]
  rfl

@[simp] theorem fetched_cond (s : State) : s.fetched.cond = s.cond := by
  simp [State.fetched, State.cycleTop]

@[simp] theorem fetched_status (s : State) : s.fetched.status = .running := by
  simp [State.fetched, State.cycleTop]

@[simp] theorem fetched_wait (s : State) : s.fetched.wait = s.wait := by
  simp [State.fetched, State.cycleTop]

@[simp] theorem fetched_running (s : State) : s.fetched.running = s.hostTurn.running := by
  simp [State.fetched, State.cycleTop]

@[simp] theorem fetched_output (s : State) : s.fetched.output = s.output := by
  simp [State.fetched, State.cycleTop]

theorem fetched_mem_wf {s : State} (hs : s.mem.Wf) : s.fetched.mem.Wf := by
  have htop : s.cycleTop.mem.Wf := (hostTurn_mem s).symm ▸ hs
  exact intercept_wf htop s.pc

/-! ### Running State (10_state.md R30) -/

theorem running_stays_false {s t : State} (h : StepTo s t) (hs : s.running = false) :
    t.running = false := by
  have hturn : s.hostTurn.running = false := hostTurn_running_false hs
  cases h with
  | stay => exact hs
  | resume => rw [resume_running, hturn]
  | halt => exact hturn
  | run ready =>
    obtain ⟨_, _, hrunning⟩ := ready
    exact absurd (hturn.symm.trans hrunning) nofun

/-- The host clears Running State by an interrupt request only (60_exceptions.md R214). -/
theorem interrupt_of_hostTurn_cleared {s : State} (hs : s.running = true)
    (ht : s.hostTurn.running = false) :
    ∃ events later, s.host = events :: later ∧ HostEvent.interrupt ∈ events := by
  rw [hostTurn_running, hs] at ht
  cases hhost : s.host with
  | nil => simp [hhost] at ht
  | cons events later => exact ⟨events, later, rfl, by simpa [hhost] using ht⟩

/-- The core clears Running State by a fetched HALT only. -/
theorem halt_of_core_cleared {s t : State} (h : StepTo s t) (hs : s.hostTurn.running = true)
    (ht : t.running = false) :
    s.wait = none ∧ decode s.fetchedWord = .halt ∧ t.output = s.output ++ Config.haltNotice := by
  cases h with
  | stay => exact absurd ((hostTurn_running_false ht).symm.trans hs) nofun
  | resume =>
    rw [resume_running] at ht
    exact absurd (ht.symm.trans hs) nofun
  | halt _ cleared => exact absurd (cleared.symm.trans hs) nofun
  | run ready =>
    obtain ⟨_, hw, _⟩ := ready
    rcases (execState_effect (decode s.fetchedWord) s.fetched).running with hkept | hhalt | htrap
    · rw [hkept, fetched_running] at ht
      exact absurd (ht.symm.trans hs) nofun
    · refine ⟨hw, hhalt, ?_⟩
      rw [hhalt, execState_of_trapVector (vector := 0x25#8) rfl, ← fetched_output s]
      rfl
    · exact absurd htrap (decode_ne_trap_halt _)

/-! ### Terminal states (10_state.md R32) -/

theorem run_of_halted {s : State} (h : s.status = .halted) (k : Nat) : core.run k s = .next s := by
  induction k with
  | zero => rfl
  | succ k ih =>
    have hstep : core.step s = .next s := step_of_halted h
    simpa [Host.Core.run, hstep] using ih

theorem run_of_faulted {s : State} {f : Fault} (h : s.status = .faulted f) (k : Nat) :
    core.run (k + 1) s = .fault f := by
  have hstep : core.step s = .fault f := step_of_faulted h
  simp [Host.Core.run, hstep]

/-! ### O44, O45, O46, O49 -/

/-- Settles O44; away from 0xFE00 the fetch is a plain read that leaves the state as the host left it. -/
theorem stepRunsTheDecodedInstruction : Obligations.StepRunsTheDecodedInstruction := by
  intro s hready
  refine ⟨step_of_ready hready, fun i _ hpc hi => ?_⟩
  rw [step_of_ready hready, fetchedWord_of_ne_kbsr hpc, hi, fetched_of_ne_kbsr hpc]

/-- Settles O45. -/
theorem clearedRunningHaltsAtTheTop : Obligations.ClearedRunningHaltsAtTheTop :=
  fun _ hactive hw hr => step_of_cleared hactive hw hr

/-- Settles O46, by induction on the number of steps. -/
theorem haltedAndFaultedAreTerminal : Obligations.HaltedAndFaultedAreTerminal :=
  fun _ k => ⟨fun h => run_of_halted h k, fun _ h => run_of_faulted h k⟩

/-- Settles O49: the host clears Running State by an interrupt, the core by a fetched HALT, and nothing
sets it. -/
theorem runningOnceFalseStaysFalse : Obligations.RunningOnceFalseStaysFalse := by
  intro s t h
  have hto := stepTo_of_step h
  exact ⟨running_stays_false hto, interrupt_of_hostTurn_cleared, halt_of_core_cleared hto⟩

end Sys2Proof.Machine
end

section
/-! The invariant of the machine: reset meets it and every step keeps it. O55, O56 and O57. -/

namespace Sys2Proof.Machine

/-! ### What the end of a wait leaves alone -/

@[simp] theorem resume_mem (s : State) (service : WaitService) : (s.resume service).mem = s.mem := by
  cases service <;> simp [State.resume]

@[simp] theorem resume_cond (s : State) (service : WaitService) : (s.resume service).cond = s.cond := by
  cases service <;> simp [State.resume]

@[simp] theorem resume_status (s : State) (service : WaitService) :
    (s.resume service).status = s.status := by
  cases service <;> simp [State.resume]

/-! ### Each part of a step keeps the invariant -/

theorem State.Inv.hostTurn {s : State} (h : s.Inv) : s.hostTurn.Inv where
  memWf := by
    rw [hostTurn_mem]
    exact h.memWf
  condLegal := by
    rw [State.CondLegal, hostTurn_cond]
    exact h.condLegal
  waitLegal := by
    rw [State.WaitLegal, hostTurn_wait, hostTurn_status]
    exact h.waitLegal
  haltLegal hs := hostTurn_running_false (h.haltLegal (hostTurn_status s ▸ hs))

theorem State.Inv.halted {s : State} (h : s.Inv) (hw : s.wait = none) (hr : s.running = false) :
    ({ s with status := .halted } : State).Inv :=
  ⟨h.memWf, h.condLegal, fun hne => absurd hw hne, fun _ => hr⟩

theorem State.Inv.resume {s : State} (h : s.Inv) (hs : s.status = .running) (service : WaitService) :
    (s.resume service).Inv where
  memWf := by
    rw [resume_mem]
    exact h.memWf
  condLegal := by
    rw [State.CondLegal, resume_cond]
    exact h.condLegal
  waitLegal _ := (resume_status s service).trans hs
  haltLegal := by
    rw [State.HaltLegal, resume_status, hs]
    nofun

theorem State.Inv.fetched {s : State} (h : s.Inv) : s.fetched.Inv where
  memWf := fetched_mem_wf h.memWf
  condLegal := by
    rw [State.CondLegal, fetched_cond]
    exact h.condLegal
  waitLegal _ := fetched_status s
  haltLegal := by
    rw [State.HaltLegal, fetched_status]
    nofun

/-- A flag-defining instruction leaves one of `condCode`'s three values, any other the COND it met
(10_state.md R29). -/
theorem ExecEffect.condLegal {i : Instr} {s t : State} (h : ExecEffect i s t) (hs : s.CondLegal) :
    t.CondLegal := by
  cases hd : i.flagDst with
  | some dst =>
    rw [State.CondLegal, h.cond_of_flagDst hd]
    exact condCode_legal _
  | none =>
    rw [State.CondLegal, h.cond_of_flagDst_none hd]
    exact hs

/-- An instruction of a running machine that waits for nothing keeps the invariant: it stays running or
it faults, and it does not fault and wait at once. -/
theorem ExecEffect.inv {i : Instr} {s t : State} (h : ExecEffect i s t) (hs : s.Inv)
    (hrunning : s.status = .running) (hw : s.wait = none) : t.Inv where
  memWf := h.mem_wf hs.memWf
  condLegal := h.condLegal hs.condLegal
  waitLegal hne := by
    rcases h.status with hkept | ⟨_, hwait⟩
    · exact hkept.trans hrunning
    · exact absurd (hwait.trans hw) hne
  haltLegal hhalted := by
    rcases h.status with hkept | ⟨⟨f, hf⟩, _⟩
    · exact absurd (hhalted.symm.trans (hkept.trans hrunning)) nofun
    · exact absurd (hhalted.symm.trans hf) nofun

/-! ### O55, O56, O57 -/

/-- Settles O55, by the cases of a step: the host's turn, the fetch, the instruction, the end of a wait
and the halt each keep the invariant. -/
theorem stepKeepsTheInvariant : Obligations.StepKeepsTheInvariant := by
  intro s t hs h
  cases stepTo_of_step h with
  | stay => exact hs
  | resume _ waits =>
    have hrunning : s.status = .running := hs.waitLegal (waits ▸ nofun)
    exact hs.hostTurn.resume ((hostTurn_status s).trans hrunning) _
  | halt waits cleared => exact hs.hostTurn.halted ((hostTurn_wait s).trans waits) cleared
  | run ready =>
    obtain ⟨_, hw, _⟩ := ready
    exact (execState_effect _ _).inv hs.fetched (fetched_status s) ((fetched_wait s).trans hw)

/-- Settles O56: nothing is stored, COND is ZRO, nothing waits and the machine is loaded. -/
theorem resetMeetsTheInvariant : Obligations.ResetMeetsTheInvariant where
  memWf := wf_nil
  condLegal := .inr (.inl rfl)
  waitLegal hne := absurd rfl hne
  haltLegal := nofun

/-- Settles O57: each register is an entry of a constant vector, the rest are the fields of reset. -/
theorem resetValuesAreTheTables : Obligations.ResetValuesAreTheTables := by
  have hreg (r : Reg) : State.reset.reg r = 0x0000#16 := Vector.getElem_replicate r.isLt
  have hmem (a : Word) : State.reset.arrayRead a = 0x0000#16 := read_nil a.toNat
  exact ⟨hreg, hmem, rfl, rfl, rfl, rfl, rfl, rfl⟩

end Sys2Proof.Machine
end

section
/-! What reads and stores do to memory (20_memory.md R52 to R61): O18, O24, O25, O26, O27 and O53. -/

namespace Sys2Proof.Machine

/-! ### The keyboard poll (20_memory.md R53) -/

theorem kbdr_ne_kbsr : Config.kbdr ≠ Config.kbsr := by decide

/-- A poll consumes the first item, where there is one. -/
theorem pollKeyboard_input (s : State) : s.pollKeyboard.input = s.input.tail := by
  rcases pollKeyboard_cases s with ⟨hi, h⟩ | ⟨_, _, hi, h⟩ <;> rw [h, hi] <;> simp [hi]

/-- The data Word after a poll: the first item's Word, or what stood there if there is no item. -/
theorem pollKeyboard_arrayRead_kbdr (s : State) :
    s.pollKeyboard.arrayRead Config.kbdr =
      (s.input.head?.map charWord).getD (s.arrayRead Config.kbdr) := by
  rcases pollKeyboard_cases s with ⟨hi, h⟩ | ⟨x, rest, hi, h⟩ <;>
    rw [h, hi, memWrite_arrayRead_other _ _ kbdr_ne_kbsr.symm]
  · rfl
  · exact memWrite_arrayRead_same _ _ _

/-- A poll with nothing available stores 0x0000 at 0xFE00 and nothing else. -/
theorem pollKeyboard_memKept_of_nil {s : State} (h : s.input = []) :
    MemKeptBut [Config.kbsr] s s.pollKeyboard := by
  intro a ha
  rw [pollKeyboard_nil h, memWrite_arrayRead_other _ _ (Ne.symm (List.ne_of_not_mem_cons ha))]

theorem pollKeyboard_memKept (s : State) :
    MemKeptBut [Config.kbsr, Config.kbdr] s s.pollKeyboard := by
  intro a ha
  obtain ⟨h0, h2⟩ := List.ne_and_not_mem_of_not_mem_cons ha
  exact pollKeyboard_arrayRead_other s h0 (List.ne_of_not_mem_cons h2)

/-- A poll with an item available: the ready status, the item's Word at 0xFE02, the item consumed. -/
theorem pollKeyboard_of_item {s : State} {x : HostChar} {rest : List HostChar}
    (h : s.input = x :: rest) :
    s.pollKeyboard.arrayRead Config.kbsr = Config.kbsrReady ∧
      s.pollKeyboard.arrayRead Config.kbdr = charWord x ∧ s.pollKeyboard.input = rest := by
  simp [pollKeyboard_arrayRead_kbsr, pollKeyboard_arrayRead_kbdr, pollKeyboard_input, h]

theorem charWord_char_toNat (c : Byte) : (charWord (.char c)).toNat = c.toNat :=
  zext_toNat c (by decide)

/-- What stood at 0xFE00 before a poll does not matter to it. -/
theorem pollKeyboard_arrayRead_congr {s t : State} (hinput : t.input = s.input)
    (hmem : MemKeptBut [Config.kbsr] s t) (a : Word) :
    t.pollKeyboard.arrayRead a = s.pollKeyboard.arrayRead a := by
  by_cases h0 : a = Config.kbsr
  · rw [h0, pollKeyboard_arrayRead_kbsr, pollKeyboard_arrayRead_kbsr, hinput]
  by_cases h2 : a = Config.kbdr
  · rw [h2, pollKeyboard_arrayRead_kbdr, pollKeyboard_arrayRead_kbdr, hinput,
      hmem Config.kbdr (by decide)]
  · rw [pollKeyboard_arrayRead_other t h0 h2, pollKeyboard_arrayRead_other s h0 h2,
      hmem a (by simpa using h0)]

/-! ### `MemRead` (20_memory.md R52) -/

theorem memRead_kbsr_fst (s : State) :
    (s.memRead Config.kbsr).1 = if s.input = [] then 0x0000#16 else Config.kbsrReady := by
  rw [memRead_fst, intercept_kbsr, pollKeyboard_arrayRead_kbsr]

theorem intercept_keptButMemory (s : State) (a : Word) : KeptButMemory s (s.intercept a) :=
  ⟨fun r _ => intercept_reg s a r, intercept_pc s a, intercept_cond s a,
    ⟨intercept_running s a, intercept_status s a, intercept_wait s a⟩,
    intercept_output s a, intercept_host s a⟩

theorem memReadEffect_of_ne_kbsr (s : State) {a : Word} (h : a ≠ Config.kbsr) :
    MemReadEffect a (s.memRead a).1 s (s.memRead a).2 := by
  rw [memRead_other s h]
  exact ⟨fun _ => ⟨rfl, fun _ _ => rfl, rfl⟩, fun e => absurd e h, fun e => absurd e h,
    fun e => absurd e h⟩

theorem memReadEffect_kbsr (s : State) :
    MemReadEffect Config.kbsr (s.memRead Config.kbsr).1 s (s.memRead Config.kbsr).2 := by
  rw [memRead_snd, memRead_fst, intercept_kbsr]
  constructor
  case plain => exact fun h => absurd rfl h
  case nothing =>
    intro _ hin
    have hstatus : s.pollKeyboard.arrayRead Config.kbsr = 0x0000#16 := by
      rw [pollKeyboard_arrayRead_kbsr, if_pos hin]
    have hrest : s.pollKeyboard.input = [] := by rw [pollKeyboard_input, hin, List.tail_nil]
    exact ⟨hstatus, hstatus, pollKeyboard_memKept_of_nil hin, hrest⟩
  case character =>
    intro _ c rest hin
    obtain ⟨hstatus, hdata, hrest⟩ := pollKeyboard_of_item hin
    exact ⟨hstatus, hstatus, hdata ▸ charWord_char_toNat c, pollKeyboard_memKept s, hrest⟩
  case endOfStream =>
    intro _ rest hin
    obtain ⟨hstatus, hdata, hrest⟩ := pollKeyboard_of_item hin
    exact ⟨hstatus, hstatus, hdata, pollKeyboard_memKept s, hrest⟩

/-! ### O18, O24, O25 -/

/-- Settles O18, by whether the address is the one that polls. -/
theorem memReadPollsOnlyTheStatusAddress : Obligations.MemReadPollsOnlyTheStatusAddress := by
  intro s a
  refine ⟨?_, memRead_snd s a ▸ intercept_keptButMemory s a⟩
  by_cases h : a = Config.kbsr
  · exact h ▸ memReadEffect_kbsr s
  · exact memReadEffect_of_ne_kbsr s h

/-- Settles O24: the store leaves the input and every Word but the status alone, and the poll does not
look at the status Word it replaces. -/
theorem storeToStatusIsOverwrittenByItsRead : Obligations.StoreToStatusIsOverwrittenByItsRead := by
  intro s v
  have hkept : MemKeptBut [Config.kbsr] s (s.memWrite Config.kbsr v) := fun a ha =>
    memWrite_arrayRead_other s v (Ne.symm (List.ne_of_not_mem_cons ha))
  have hread := pollKeyboard_arrayRead_congr (memWrite_input s Config.kbsr v) hkept
  simp only [memRead_fst, memRead_snd, intercept_kbsr]
  exact ⟨hread Config.kbsr, hread, by simp only [pollKeyboard_input, memWrite_input]⟩

/-- Settles O25: the first read consumes the only item, so the second finds none and keeps 0xFE02. -/
theorem secondStatusReadFindsNothing : Obligations.SecondStatusReadFindsNothing := by
  intro s c hin
  obtain ⟨_, hdata, hempty⟩ := pollKeyboard_of_item hin
  have hkept : s.pollKeyboard.pollKeyboard.arrayRead Config.kbdr = charWord (.char c) := by
    rw [pollKeyboard_memKept_of_nil hempty Config.kbdr (by decide), hdata]
  refine ⟨?_, ?_, ?_⟩
  · rw [memRead_kbsr_fst, hin, if_neg nofun]
  · rw [memRead_kbsr_fst, memRead_snd, intercept_kbsr, if_pos hempty]
  · rw [memRead_other _ kbdr_ne_kbsr, memRead_snd, memRead_snd, intercept_kbsr, intercept_kbsr, hkept,
      charWord_char_toNat]

/-! ### What an instruction does to memory (20_memory.md R57) -/

/-- One of an instruction's `MemRead`s changes no Word but the two keyboard cells, and those only if
one of the reads is of 0xFE00. -/
theorem intercept_arrayRead_of_mem (s : State) {reads : List Word} {a b : Word}
    (ha : Config.kbsr ∈ reads → a ≠ Config.kbsr ∧ a ≠ Config.kbdr) (hb : b ∈ reads) :
    (s.intercept b).arrayRead a = s.arrayRead a := by
  by_cases h : b = Config.kbsr
  · obtain ⟨h0, h2⟩ := ha (h ▸ hb)
    exact intercept_arrayRead_other s b h0 h2
  · rw [intercept_other s h]

theorem execState_arrayRead_of_trapVector {i : Instr} {vector : BitVec 8}
    (hv : i.trapVector = some vector) (s : State) (a : Word) :
    (execState i s).arrayRead a = s.arrayRead a := by
  rw [execState_of_trapVector hv, State.arrayRead, trapService_mem, State.arrayRead]

/-- Settles O26, instruction by instruction: only the loads and STI read, only the stores store. -/
theorem memoryChangesOnlyByStoreOrPoll : Obligations.MemoryChangesOnlyByStoreOrPoll := by
  intro i s t h a hstore hreads
  obtain rfl := (exec_next_iff i s t).1 h
  cases i with
  | ld | ldr => exact intercept_arrayRead_of_mem s hreads (List.mem_singleton_self _)
  | ldi dst offset9 =>
    have hpointer := intercept_arrayRead_of_mem s hreads List.mem_cons_self
    have hpointee := intercept_arrayRead_of_mem (s.indirect offset9).2 hreads
      (List.mem_cons_of_mem _ (List.mem_singleton_self _))
    exact hpointee.trans hpointer
  | st | str => exact memWrite_arrayRead_other s _ fun e => hstore (congrArg some e)
  | sti src offset9 =>
    have hpointer := intercept_arrayRead_of_mem s hreads (List.mem_singleton_self _)
    rw [execState_sti, memWrite_arrayRead_other _ _ fun e => hstore (congrArg some e)]
    exact hpointer
  | br mask offset9 =>
    rw [execState_br]
    split <;> rfl
  | trap | getc | out | puts | inChar | putsp | halt => exact execState_arrayRead_of_trapVector rfl s a
  | addReg | addImm | andReg | andImm | not | lea | jmp | ret | jsr | jsrr | rti | res => rfl

/-! ### O27: the canonical form (20_memory.md R50) -/

/-- Where two memories read alike, a cell the first lists is one the second lists. -/
theorem mem_of_reads_alike {m n : Memory} (hm : m.Wf) (hn : n.Wf)
    (h : ∀ a, a < 65536 → m.read a = n.read a) {c : Nat × Word} (hc : c ∈ m) : c ∈ n := by
  obtain ⟨hread, hlisted⟩ := (mem_iff_read hm c).1 hc
  obtain ⟨hspace, _⟩ := hm.2 c hc
  exact (mem_iff_read hn c).2 ⟨(h c.1 hspace).symm.trans hread, hlisted⟩

/-- Settles O27: the two list the same cells, and rising addresses leave one order for them. -/
theorem memoriesThatReadAlikeAreEqual : Obligations.MemoriesThatReadAlikeAreEqual := by
  intro m n hm hn h
  have hirrefl : Std.Irrefl fun c d : Nat × Word => c.1 < d.1 := ⟨fun c => Nat.lt_irrefl c.1⟩
  have hantisymm : Std.Antisymm fun c d : Nat × Word => c.1 < d.1 :=
    ⟨fun _ _ hcd hdc => absurd hcd hdc.asymm⟩
  exact hm.1.eq_of_mem_iff hn.1 fun c =>
    ⟨mem_of_reads_alike hm hn h, mem_of_reads_alike hn hm fun a ha => (h a ha).symm⟩

/-! ### O53: a store onto the next instruction (20_memory.md R68) -/

/-- ST, STR and STI end by storing their source register at their address. -/
theorem execState_of_storeAddr {i : Instr} {src : Reg} {s : State} {a : Word}
    (hi : (∃ offset9, i = .st src offset9) ∨ (∃ base offset6, i = .str src base offset6) ∨
      ∃ offset9, i = .sti src offset9) (ha : i.storeAddr s = some a) :
    ∃ u, AfterReads s u ∧ execState i s = u.memWrite a (s.reg src) := by
  rcases hi with ⟨offset9, rfl⟩ | ⟨base, offset6, rfl⟩ | ⟨offset9, rfl⟩ <;>
    obtain rfl := Option.some.inj ha
  · exact ⟨s, .refl, rfl⟩
  · exact ⟨s, .refl, rfl⟩
  · exact ⟨(s.indirect offset9).2, .read _ .refl, rfl⟩

/-- Reads and a store leave the machine ready to run its next cycle. -/
theorem ready_memWrite_of_afterReads {s u : State} (hu : AfterReads s u) (hs : s.Ready) (a v : Word) :
    (u.memWrite a v).Ready := by
  obtain ⟨hactive, hwait, hrunning⟩ := hs
  rw [hostTurn_running] at hrunning
  rw [hu.eq]
  exact ⟨hactive, hwait, (hostTurn_running _).trans hrunning⟩

/-- Settles O53: the store leaves the machine ready, with the Word at the unchanged PC, and away from
0xFE00 the next fetch reads it plainly (O44). -/
theorem storedWordRunsNext : Obligations.StoredWordRunsNext := by
  intro i src s hi haddr hpc hready
  obtain ⟨u, hreads, hstate⟩ := execState_of_storeAddr hi haddr
  refine ⟨u.memWrite s.pc (s.reg src), hstate ▸ exec_eq_next i s, ?_⟩
  have hpcKept : (u.memWrite s.pc (s.reg src)).pc = s.pc := hreads.pc
  obtain ⟨_, hplain⟩ := stepRunsTheDecodedInstruction _
    (ready_memWrite_of_afterReads hreads hready s.pc (s.reg src))
  rw [hplain _ (decode_wellFormed _) (hpcKept ▸ hpc) rfl, hpcKept, memWrite_arrayRead_same]

end Sys2Proof.Machine
end

section
/-! The fields of 30_encoding.md R82, said once: the encoder writes them, the decoder reads them, and they
are the examined bits. Then O1 to O4. -/

namespace Sys2Proof

/-! ### The fields of an instruction -/

/-- One field of a Word: the bits `[lo + len - 1 : lo]` and what they hold. -/
structure BitField where
  lo : Nat
  len : Nat
  value : BitVec len

/-- The fields that 30_encoding.md R82 gives an instruction, the opcode of R81 first. -/
def Instr.fields : Instr → List BitField
  | .addReg dst src1 src2 =>
    [⟨12, 4, 1⟩, ⟨9, 3, regBits dst⟩, ⟨6, 3, regBits src1⟩, ⟨5, 1, 0⟩, ⟨0, 3, regBits src2⟩]
  | .addImm dst src1 imm5 =>
    [⟨12, 4, 1⟩, ⟨9, 3, regBits dst⟩, ⟨6, 3, regBits src1⟩, ⟨5, 1, 1⟩, ⟨0, 5, imm5⟩]
  | .andReg dst src1 src2 =>
    [⟨12, 4, 5⟩, ⟨9, 3, regBits dst⟩, ⟨6, 3, regBits src1⟩, ⟨5, 1, 0⟩, ⟨0, 3, regBits src2⟩]
  | .andImm dst src1 imm5 =>
    [⟨12, 4, 5⟩, ⟨9, 3, regBits dst⟩, ⟨6, 3, regBits src1⟩, ⟨5, 1, 1⟩, ⟨0, 5, imm5⟩]
  | .not dst src => [⟨12, 4, 9⟩, ⟨9, 3, regBits dst⟩, ⟨6, 3, regBits src⟩]
  | .br mask offset9 => [⟨12, 4, 0⟩, ⟨9, 3, mask⟩, ⟨0, 9, offset9⟩]
  | .jmp base => [⟨12, 4, 12⟩, ⟨6, 3, regBits base⟩]
  | .ret => [⟨12, 4, 12⟩, ⟨6, 3, regBits 7⟩]
  | .jsr offset11 => [⟨12, 4, 4⟩, ⟨11, 1, 1⟩, ⟨0, 11, offset11⟩]
  | .jsrr base => [⟨12, 4, 4⟩, ⟨11, 1, 0⟩, ⟨6, 3, regBits base⟩]
  | .ld dst offset9 => [⟨12, 4, 2⟩, ⟨9, 3, regBits dst⟩, ⟨0, 9, offset9⟩]
  | .ldi dst offset9 => [⟨12, 4, 10⟩, ⟨9, 3, regBits dst⟩, ⟨0, 9, offset9⟩]
  | .lea dst offset9 => [⟨12, 4, 14⟩, ⟨9, 3, regBits dst⟩, ⟨0, 9, offset9⟩]
  | .st src offset9 => [⟨12, 4, 3⟩, ⟨9, 3, regBits src⟩, ⟨0, 9, offset9⟩]
  | .sti src offset9 => [⟨12, 4, 11⟩, ⟨9, 3, regBits src⟩, ⟨0, 9, offset9⟩]
  | .ldr dst base offset6 =>
    [⟨12, 4, 6⟩, ⟨9, 3, regBits dst⟩, ⟨6, 3, regBits base⟩, ⟨0, 6, offset6⟩]
  | .str src base offset6 =>
    [⟨12, 4, 7⟩, ⟨9, 3, regBits src⟩, ⟨6, 3, regBits base⟩, ⟨0, 6, offset6⟩]
  | .trap vector => [⟨12, 4, 15⟩, ⟨0, 8, vector⟩]
  | .getc => [⟨12, 4, 15⟩, ⟨0, 8, 0x20⟩]
  | .out => [⟨12, 4, 15⟩, ⟨0, 8, 0x21⟩]
  | .puts => [⟨12, 4, 15⟩, ⟨0, 8, 0x22⟩]
  | .inChar => [⟨12, 4, 15⟩, ⟨0, 8, 0x23⟩]
  | .putsp => [⟨12, 4, 15⟩, ⟨0, 8, 0x24⟩]
  | .halt => [⟨12, 4, 15⟩, ⟨0, 8, 0x25⟩]
  | .rti low => [⟨12, 4, 8⟩, ⟨0, 12, low⟩]
  | .res low => [⟨12, 4, 13⟩, ⟨0, 12, low⟩]

/-- The Word holds every field of the instruction. -/
def Instr.HeldBy (i : Instr) (w : Word) : Prop :=
  ∀ f ∈ i.fields, w.extractLsb' f.lo f.len = f.value

/-! ### The table of examined bits is the fields, and no other bit -/

theorem examined_of_field {i : Instr} : ∀ f ∈ i.fields,
    i.examined.extractLsb' f.lo f.len = BitVec.allOnes f.len := by
  cases i <;> simp only [Instr.fields, Instr.examined, List.forall_mem_cons, List.not_mem_nil,
    false_imp_iff, implies_true, and_true] <;> decide

theorem exists_field_of_examined {i : Instr} : ∀ k < 16, i.examined.getLsbD k = true →
    ∃ f ∈ i.fields, f.lo ≤ k ∧ k < f.lo + f.len := by
  cases i <;> simp [Instr.fields, Instr.examined] <;> decide

/-- Words that agree under a mask agree in a field the mask covers. -/
theorem field_eq_of_and_eq {v w mask : Word} (h : v &&& mask = w &&& mask) {lo len : Nat}
    (hmask : mask.extractLsb' lo len = BitVec.allOnes len) :
    v.extractLsb' lo len = w.extractLsb' lo len := by
  simpa only [BitVec.extractLsb'_and, hmask, BitVec.and_allOnes] using
    congrArg (BitVec.extractLsb' lo len) h

/-- Words that agree in a field agree in each of its bits. -/
theorem getLsbD_eq_of_field_eq {v w : Word} {lo len k : Nat}
    (h : v.extractLsb' lo len = w.extractLsb' lo len) (hlo : lo ≤ k) (hhi : k < lo + len) :
    v.getLsbD k = w.getLsbD k := by
  have hbit := congrArg (BitVec.getLsbD · (k - lo)) h
  simpa [show k - lo < len by omega, show lo + (k - lo) = k by omega] using hbit

/-- Two Words agree in the examined bits exactly when they agree in every field. -/
theorem examined_and_eq_iff {i : Instr} {v w : Word} :
    v &&& i.examined = w &&& i.examined ↔
      ∀ f ∈ i.fields, v.extractLsb' f.lo f.len = w.extractLsb' f.lo f.len := by
  refine ⟨fun h f hf => field_eq_of_and_eq h (examined_of_field f hf), fun h => ?_⟩
  refine BitVec.eq_of_getLsbD_eq fun k hk => ?_
  rw [BitVec.getLsbD_and, BitVec.getLsbD_and]
  cases hexamined : i.examined.getLsbD k with
  | false => rw [Bool.and_false, Bool.and_false]
  | true =>
    obtain ⟨f, hf, hlo, hhi⟩ := exists_field_of_examined k hk hexamined
    rw [getLsbD_eq_of_field_eq (h f hf) hlo hhi]

theorem Instr.HeldBy.examined_and_eq {i : Instr} {v w : Word} (hv : i.HeldBy v) (hw : i.HeldBy w) :
    v &&& i.examined = w &&& i.examined :=
  examined_and_eq_iff.2 fun f hf => (hv f hf).trans (hw f hf).symm

theorem Instr.HeldBy.congr {i : Instr} {v w : Word} (hw : i.HeldBy w)
    (h : v &&& i.examined = w &&& i.examined) : i.HeldBy v :=
  fun f hf => (examined_and_eq_iff.1 h f hf).trans (hw f hf)

/-! ### The encoder writes the fields -/

/-- The encoded Word holds the instruction's fields (30_encoding.md R82). -/
theorem heldBy_encode (i : Instr) : i.HeldBy (encode i) := by
  unfold Instr.HeldBy
  cases i with
  | ret | getc | out | puts | inChar | putsp | halt => exact of_decide_eq_true rfl
  | _ =>
    simp [Instr.fields, BitVec.toNat_eq, encode, wordRegReg_toNat, wordReg_toNat,
      wordMask_toNat, wordFlag_toNat, wordVector_toNat, wordLow_toNat, lowRegister_toNat,
      lowImmediate_toNat]
    omega

/-! ### The decoder reads the fields -/

theorem decodeTrap_of_not_service {vector : BitVec 8} (h : vector ∉ serviceVectors) :
    decodeTrap vector = .trap vector := by
  simp only [serviceVectors, List.mem_cons, List.not_mem_nil, or_false, not_or] at h
  simp only [decodeTrap, h, if_false]

/-- The fields settle what a Word decodes to: the opcode and the mode choose the arm, the others are its
operands. -/
theorem decode_of_heldBy {i : Instr} (hi : i.wellFormed = true) {w : Word} (h : i.HeldBy w) :
    decode w = i := by
  unfold Instr.HeldBy at h
  cases i with
  | jmp base =>
    have hbase : base ≠ 7 := by simpa [Instr.wellFormed] using hi
    simp [Instr.fields] at h
    simp [decode, decodeJmp, regField, h, hbase]
  | trap vector =>
    have hvector : vector ∉ serviceVectors := by simpa [Instr.wellFormed] using hi
    simp [Instr.fields] at h
    simp [decode, h, decodeTrap_of_not_service hvector]
  | getc | out | puts | inChar | putsp | halt =>
    simp [Instr.fields] at h
    simp [decode, h, decodeTrap]
  | _ =>
    simp [Instr.fields] at h
    simp [decode, decodeJmp, decodeJsr, regField, h]

/-- The opcode field from its value, the form in which `decode` branches on it. -/
theorem opcode_eq_ofNat {w : Word} {n : Nat} (h : (w.extractLsb' 12 4).toNat = n) :
    w.extractLsb' 12 4 = BitVec.ofNat 4 n := by
  rw [← h, BitVec.ofNat_toNat, BitVec.setWidth_eq]

theorem flag_eq_zero {b : BitVec 1} (h : b ≠ 1#1) : b = 0#1 :=
  (BitVec.eq_zero_or_eq_one b).resolve_right h

theorem decodeTrap_heldBy {w : Word} (h : w.extractLsb' 12 4 = 15) :
    (decodeTrap (w.extractLsb' 0 8)).HeldBy w := by
  unfold Instr.HeldBy decodeTrap
  split_ifs <;> simp [Instr.fields, *]

theorem decodeJmp_heldBy {w : Word} (h : w.extractLsb' 12 4 = 12) : (decodeJmp w).HeldBy w := by
  unfold Instr.HeldBy decodeJmp
  split
  · next h7 => simp [Instr.fields, h, ← h7, regField]
  · simp [Instr.fields, h, regField]

theorem decodeJsr_heldBy {w : Word} (h : w.extractLsb' 12 4 = 4) : (decodeJsr w).HeldBy w := by
  unfold Instr.HeldBy decodeJsr
  split
  · next hflag => simp [Instr.fields, h, hflag]
  · next hflag => simp [Instr.fields, h, flag_eq_zero hflag, regField]

/-- Every Word holds the fields of the instruction it decodes to (30_encoding.md R86). -/
theorem decode_heldBy (w : Word) : (decode w).HeldBy w := by
  unfold decode
  split
  case h_2 h | h_6 h =>
    split
    · next hmode => simp [Instr.HeldBy, Instr.fields, opcode_eq_ofNat h, hmode, regField]
    · next hmode => simp [Instr.HeldBy, Instr.fields, opcode_eq_ofNat h, flag_eq_zero hmode, regField]
  case h_5 h => exact decodeJsr_heldBy (opcode_eq_ofNat h)
  case h_13 h => exact decodeJmp_heldBy (opcode_eq_ofNat h)
  case h_16 =>
    have hopcode : (w.extractLsb' 12 4).toNat = 15 := by simp only [imp_false] at *; omega
    exact decodeTrap_heldBy (opcode_eq_ofNat hopcode)
  all_goals
    next h => simp [Instr.HeldBy, Instr.fields, opcode_eq_ofNat h, regField]

theorem decode_of_opcode_rti {w : Word} (h : (w.extractLsb' 12 4).toNat = 8) :
    decode w = .rti (w.extractLsb' 0 12) :=
  decode_of_heldBy rfl (by simp [Instr.HeldBy, Instr.fields, opcode_eq_ofNat h])

theorem decode_of_opcode_res {w : Word} (h : (w.extractLsb' 12 4).toNat = 13) :
    decode w = .res (w.extractLsb' 0 12) :=
  decode_of_heldBy rfl (by simp [Instr.HeldBy, Instr.fields, opcode_eq_ofNat h])

/-! ### O1 to O4 -/

/-- Settles O1: each Word is decoded by computation. -/
theorem writtenOutWordsDecode : Obligations.WrittenOutWordsDecode := by
  unfold Obligations.WrittenOutWordsDecode
  decide

/-- Settles O2: the decoder reads back the fields the encoder wrote. -/
theorem decodeOfEncodeIsTheInstruction : Obligations.DecodeOfEncodeIsTheInstruction :=
  fun i hi => decode_of_heldBy hi (heldBy_encode i)

/-- Settles O3: the Word and the encoding of what it decodes to hold the same fields. -/
theorem encodeOfDecodeKeepsExaminedBits : Obligations.EncodeOfDecodeKeepsExaminedBits :=
  fun w => (heldBy_encode (decode w)).examined_and_eq (decode_heldBy w)

/-- Settles O4: a Word that agrees with `w` in the examined bits holds the fields of `decode w`. -/
theorem ignoredBitsDoNotChangeTheInstruction : Obligations.IgnoredBitsDoNotChangeTheInstruction :=
  ⟨fun w _ h => decode_of_heldBy (decode_wellFormed w) ((decode_heldBy w).congr h),
    fun _ => decode_of_opcode_rti, fun _ => decode_of_opcode_res⟩

end Sys2Proof
end

section
/-! The opcode table: a Word fits the row of what it decodes to, and one row only among those that refine
no other. Then O5. -/

namespace Sys2Proof

/-! ### The opcode table -/

/-- An instruction's row is in the table whatever its operands are. -/
theorem row_mem_opcodeTable (i : Instr) : i.row ∈ opcodeTable := by
  cases i <;> simp [opcodeTable, instrSamples, Instr.row, opcodeRow, serviceRow]

/-- The encoded Word fits the instruction's row. -/
theorem row_fits_encode (i : Instr) : i.row.fits (encode i) = true :=
  match i with
  | .addReg dst src1 src2 => Laws.RowFits.addReg dst src1 src2
  | .addImm dst src1 imm5 => Laws.RowFits.addImm dst src1 imm5
  | .andReg dst src1 src2 => Laws.RowFits.andReg dst src1 src2
  | .andImm dst src1 imm5 => Laws.RowFits.andImm dst src1 imm5
  | .not dst src => Laws.RowFits.not dst src
  | .br mask offset9 => Laws.RowFits.br mask offset9
  | .jmp base => Laws.RowFits.jmp base
  | .ret => Laws.RowFits.ret
  | .jsr offset11 => Laws.RowFits.jsr offset11
  | .jsrr base => Laws.RowFits.jsrr base
  | .ld dst offset9 => Laws.RowFits.ld dst offset9
  | .ldi dst offset9 => Laws.RowFits.ldi dst offset9
  | .lea dst offset9 => Laws.RowFits.lea dst offset9
  | .st src offset9 => Laws.RowFits.st src offset9
  | .sti src offset9 => Laws.RowFits.sti src offset9
  | .ldr dst base offset6 => Laws.RowFits.ldr dst base offset6
  | .str src base offset6 => Laws.RowFits.str src base offset6
  | .trap vector => Laws.RowFits.trap vector
  | .getc => Laws.RowFits.getc
  | .out => Laws.RowFits.out
  | .puts => Laws.RowFits.puts
  | .inChar => Laws.RowFits.inChar
  | .putsp => Laws.RowFits.putsp
  | .halt => Laws.RowFits.halt
  | .rti low => Laws.RowFits.rti low
  | .res low => Laws.RowFits.res low

/-- The fixed bits of an instruction's row are examined bits. -/
theorem examined_of_fixed {i : Instr} : ∀ f ∈ i.row.fixed,
    i.examined.extractLsb' f.lo f.len = BitVec.allOnes f.len := by
  cases i <;> simp only [Instr.row, opcodeRow, serviceRow, Instr.examined, List.forall_mem_cons,
    List.not_mem_nil, false_imp_iff, implies_true, and_true] <;> decide

/-- A Word that holds an instruction's fields fits its row. -/
theorem Instr.HeldBy.row_fits {i : Instr} {w : Word} (h : i.HeldBy w) : i.row.fits w = true := by
  have hencode := row_fits_encode i
  rw [Row.fits, List.all_eq_true] at hencode ⊢
  intro f hf
  rw [field_eq_of_and_eq (h.examined_and_eq (heldBy_encode i)) (examined_of_fixed f hf)]
  exact hencode f hf

/-! ### No Word fits two rows that refine no other -/

/-- Two fixed fields give different values to a bit they share. -/
abbrev FixedField.Clash (f g : FixedField) : Prop :=
  ∃ k < 16, f.lo ≤ k ∧ k < f.lo + f.len ∧ g.lo ≤ k ∧ k < g.lo + g.len ∧
    f.value.testBit (k - f.lo) ≠ g.value.testBit (k - g.lo)

/-- A Word that holds a fixed field has the field's value at each of its bits. -/
theorem testBit_of_field_eq {w : Word} {lo len value k : Nat}
    (h : (w.extractLsb' lo len).toNat = value) (hlo : lo ≤ k) (hhi : k < lo + len) :
    value.testBit (k - lo) = w.getLsbD k := by
  rw [← h, BitVec.testBit_toNat, BitVec.getLsbD_extractLsb', decide_eq_true (by omega), Bool.true_and,
    Nat.add_sub_cancel' hlo]

theorem FixedField.Clash.not_both {f g : FixedField} (h : f.Clash g) {w : Word}
    (hf : (w.extractLsb' f.lo f.len).toNat = f.value) : (w.extractLsb' g.lo g.len).toNat ≠ g.value := by
  obtain ⟨k, _, hflo, hfhi, hglo, hghi, hne⟩ := h
  exact fun hg => hne ((testBit_of_field_eq hf hflo hfhi).trans (testBit_of_field_eq hg hglo hghi).symm)

/-- Two different rows of the table that refine no other have fixed fields that clash. -/
theorem rows_clash : ∀ i ∈ instrSamples, ∀ j ∈ instrSamples, i.row.aliasOf = none →
    j.row.aliasOf = none → i ≠ j → ∃ f ∈ i.row.fixed, ∃ g ∈ j.row.fixed, f.Clash g := by
  decide

/-- One Word fits at most one row that refines no other (30_encoding.md R86). -/
theorem row_eq_of_fits {q r : Row} (hq : q ∈ opcodeTable) (hr : r ∈ opcodeTable)
    (hqOwn : q.aliasOf = none) (hrOwn : r.aliasOf = none) {w : Word} (hqw : q.fits w = true)
    (hrw : r.fits w = true) : q = r := by
  obtain ⟨i, hi, rfl⟩ := List.mem_map.1 hq
  obtain ⟨j, hj, rfl⟩ := List.mem_map.1 hr
  by_contra hne
  obtain ⟨f, hf, g, hg, hclash⟩ := rows_clash i hi j hj hqOwn hrOwn (ne_of_apply_ne Instr.row hne)
  simp only [Row.fits, List.all_eq_true, beq_iff_eq] at hqw hrw
  exact hclash.not_both (hqw f hf) (hrw g hg)

/-! ### The row that RET and the services refine -/

/-- The term whose row refines no other: JMP with base 7 for RET, TRAP with its vector for a service
(30_encoding.md R86). -/
def Instr.general : Instr → Instr
  | .ret => .jmp 7
  | .getc => .trap 0x20
  | .out => .trap 0x21
  | .puts => .trap 0x22
  | .inChar => .trap 0x23
  | .putsp => .trap 0x24
  | .halt => .trap 0x25
  | i => i

theorem general_heldBy_iff {i : Instr} {w : Word} : i.general.HeldBy w ↔ i.HeldBy w := by
  cases i <;> rfl

theorem general_row_aliasOf (i : Instr) : i.general.row.aliasOf = none := by
  cases i <;> rfl

/-- The row of the general term is the one row, among those that refine no other, that is the instruction's
own or the one its row refines. -/
theorem eq_row_or_refined_iff {i : Instr} {r : Row} (hr : r ∈ opcodeTable) (hrOwn : r.aliasOf = none) :
    (r = i.row ∨ i.row.aliasOf = some r.mnemonic) ↔ r = i.general.row := by
  revert r
  cases i with
  | ret | getc | out | puts | inChar | putsp | halt =>
    simp [opcodeTable, instrSamples, Instr.row, opcodeRow, serviceRow, Instr.general]
  | _ => exact fun _ _ => or_iff_left nofun

/-! ### O5 -/

/-- Settles O5: a Word that holds an instruction's fields holds those of its general term, whose row is then
the one row that refines no other and fits. -/
theorem everyWordDecodesToItsOneRow : Obligations.EveryWordDecodesToItsOneRow := by
  intro w
  have hheld := decode_heldBy w
  refine ⟨decode_wellFormed w, row_mem_opcodeTable (decode w), hheld.row_fits, fun r hr hrOwn => ?_⟩
  have hfits := (general_heldBy_iff.2 hheld).row_fits
  rw [eq_row_or_refined_iff hr hrOwn]
  exact ⟨fun h => row_eq_of_fits hr (row_mem_opcodeTable _) hrOwn (general_row_aliasOf _) h hfits,
    fun h => h ▸ hfits⟩

end Sys2Proof
end

section
/-! Which instructions raise `Unsupported`. Then O6. -/

namespace Sys2Proof.Machine

/-- `t` has the run status of `s`, or the fault of a string service. -/
abbrev StatusKeptOrOverrun (s t : State) : Prop :=
  t.status = s.status ∨ ∃ start, t.status = .faulted (.stringOverrun start)

theorem putString_keptOrOverrun (s : State) (bytesOf : Word → List Byte) :
    StatusKeptOrOverrun s (s.putString bytesOf) := by
  rcases putString_cases s bytesOf with ⟨_, h⟩ | ⟨_, h⟩ <;> rw [h]
  · exact .inl rfl
  · exact .inr ⟨_, rfl⟩

theorem trapService_keptOrOverrun (s : State) (vector : BitVec 8) :
    StatusKeptOrOverrun s (s.trapService vector) := by
  rcases trapService_cases s vector with
    ⟨_, h⟩ | ⟨_, h⟩ | ⟨_, h⟩ | ⟨_, h⟩ | ⟨_, h⟩ | ⟨_, h⟩ | ⟨_, h⟩ <;> rw [h]
  · exact .inl (finishGetc_status s)
  · exact .inl rfl
  · exact putString_keptOrOverrun s putsBytes
  · exact .inl (finishIn_status (s.emit Config.inPrompt))
  · exact putString_keptOrOverrun s putspBytes
  · exact .inl rfl
  · exact .inl rfl

/-- An instruction other than RTI and RES raises no fault but `StringOverrun` (60_exceptions.md R213). -/
theorem execState_keptOrOverrun {i : Instr} (hrti : ∀ low, i ≠ .rti low) (hres : ∀ low, i ≠ .res low)
    (s : State) : StatusKeptOrOverrun s (execState i s) := by
  cases i with
  | addReg | addImm | andReg | andImm | not | lea | jmp | ret | jsr | jsrr | st | str => exact .inl rfl
  | br mask offset9 =>
    rw [execState_br]
    split <;> exact .inl rfl
  | ld | ldr | sti => exact .inl (AfterReads.read _ .refl).status
  | ldi => exact .inl (AfterReads.read _ (.read _ .refl)).status
  | trap | getc | out | puts | inChar | putsp | halt =>
    rw [execState_of_trapVector rfl]
    exact trapService_keptOrOverrun s _
  | rti low => exact absurd rfl (hrti low)
  | res low => exact absurd rfl (hres low)

theorem rti_or_res_of_unsupported {i : Instr} {s : State} (hs : s.Safe) {addr word : Word}
    (h : (execState i s).status = .faulted (.unsupported addr word)) :
    (∃ low, i = .rti low) ∨ ∃ low, i = .res low := by
  by_contra hnone
  push Not at hnone
  obtain ⟨hrti, hres⟩ := hnone
  rcases execState_keptOrOverrun hrti hres s with hkept | ⟨start, hoverrun⟩
  · exact hs _ (hkept.symm.trans h)
  · exact absurd (hoverrun.symm.trans h) (by simp)

/-- Settles O6: only RTI and RES raise `Unsupported`, and the opcode alone says whether a Word is one. -/
theorem unsupportedExactlyForTwoOpcodes : Obligations.UnsupportedExactlyForTwoOpcodes := by
  intro w s t hs h
  obtain rfl := (exec_next_iff (decode w) s t).1 h
  constructor
  · rintro ⟨addr, word, hstatus⟩
    have hheld := decode_heldBy w
    rcases rti_or_res_of_unsupported hs hstatus with ⟨low, hi⟩ | ⟨low, hi⟩ <;> rw [hi] at hheld
    · exact .inl (hheld _ List.mem_cons_self)
    · exact .inr (hheld _ List.mem_cons_self)
  · rintro (hopcode | hopcode)
    · rw [decode_of_opcode_rti (congrArg BitVec.toNat hopcode)]
      exact ⟨_, _, rfl⟩
    · rw [decode_of_opcode_res (congrArg BitVec.toNat hopcode)]
      exact ⟨_, _, rfl⟩

end Sys2Proof.Machine
end

section
/-! The operate instructions ADD, AND and NOT (40_alu.md): what the flag-defining end of an instruction
leaves, the arithmetic and the bits of their results, and R111's Word. Then O10 to O12. -/

namespace Sys2Proof.Machine

/-! ### What `writeResult` leaves -/

/-- The flag-defining end of an instruction sets COND from its result (10_state.md R27, R28) and keeps
everything but the destination. -/
theorem writeResult_cond_and_kept (s : State) (dst : Reg) (v : Word) :
    (s.writeResult dst v).cond = condCode ((s.writeResult dst v).reg dst) ∧
      KeptButResult [dst] s (s.writeResult dst v) := by
  have hregs : RegsKeptBut [dst] s (s.writeResult dst v) := fun r hr => by
    rw [writeResult_reg, if_neg (Ne.symm (List.ne_of_not_mem_cons hr))]
  rw [writeResult_cond, writeResult_reg_same]
  exact ⟨rfl, hregs, fun _ _ => rfl, rfl, ⟨rfl, rfl, rfl⟩, rfl, rfl, rfl⟩

/-! ### An extended field as an operand -/

/-- An extended field, read unsigned, is the field's signed value modulo 2^16 (00_scope.md R9). -/
theorem sext_toNat_eq_emod {n : Nat} (f : BitVec n) : ((sext f).toNat : Int) = f.toInt % 65536 := by
  have hword : (sext f).toNat = (f.toInt % 65536).toNat := BitVec.toNat_ofInt f.toInt
  rw [hword, Int.toNat_of_nonneg (Int.emod_nonneg _ (by decide))]

/-- From bit `n - 1` up, an extended field repeats its sign. -/
theorem sext_getLsbD_min {n k : Nat} (f : BitVec n) (hk : k < 16) :
    (sext f).getLsbD k = f.getLsbD (min k (n - 1)) := by
  rw [BitVec.getLsbD_eq_getElem hk, sext_getElem f hk]
  split
  case isTrue hkn => rw [Nat.min_eq_left (by omega), BitVec.getLsbD_eq_getElem hkn]
  case isFalse hkn => rw [Nat.min_eq_right (by omega), BitVec.msb_eq_getLsbD_last]

/-- The unsigned sum of a Word and an extended field is their sum modulo 2^16 (40_alu.md R115). -/
theorem add_sext_toNat {n : Nat} (v : Word) (f : BitVec n) :
    ((v + sext f).toNat : Int) = (v.toNat + f.toInt) % 65536 := by
  rw [BitVec.toNat_add, Int.natCast_emod, Int.natCast_add, sext_toNat_eq_emod]
  exact Int.add_emod_emod _ _ _

/-- The signed sum of a Word and an extended field wraps (40_alu.md R115). -/
theorem add_sext_toInt {n : Nat} (v : Word) (f : BitVec n) (hn : n ≤ 16) :
    (v + sext f).toInt = (v.toInt + f.toInt).bmod 65536 := by
  rw [BitVec.toInt_add, sext_toInt f hn]

/-- R111's Word, written out field by field, is the one the encoder writes. -/
theorem addImm_word_eq_encode (dst src1 : Reg) (imm5 : BitVec 5) :
    0b0001#4 ++ BitVec.ofNat 3 dst ++ BitVec.ofNat 3 src1 ++ 1#1 ++ imm5 =
      encode (.addImm dst src1 imm5) :=
  BitVec.append_assoc

/-! ### O10 to O12 -/

/-- Settles O10: in both forms `writeResult` stores the sum of the operands, and R111's Word is the
encoder's. -/
theorem addWritesTheWrappedSum : Obligations.AddWritesTheWrappedSum := by
  refine ⟨fun dst src1 src2 s => ?_, fun dst src1 imm5 s => ?_, fun dst src1 imm5 => ?_⟩
  · refine ⟨s.writeResult dst (s.reg src1 + s.reg src2), rfl, ?_, ?_,
      writeResult_cond_and_kept s dst _⟩ <;> rw [writeResult_reg_same]
    · exact BitVec.toNat_add _ _
    · exact BitVec.toInt_add _ _
  · refine ⟨s.writeResult dst (s.reg src1 + sext imm5), rfl, ?_, ?_,
      writeResult_cond_and_kept s dst _⟩ <;> rw [writeResult_reg_same]
    · exact add_sext_toNat _ imm5
    · exact add_sext_toInt _ imm5 (by decide)
  · rw [addImm_word_eq_encode]
    exact decodeOfEncodeIsTheInstruction _ rfl

/-- Settles O11: the AND of the two operands bit by bit; the bits of an extended immediate are its own
and above them its sign. -/
theorem andWritesTheBitwiseAnd : Obligations.AndWritesTheBitwiseAnd := by
  refine ⟨fun dst src1 src2 s => ?_, fun dst src1 imm5 s => ?_⟩
  · refine ⟨s.writeResult dst (s.reg src1 &&& s.reg src2), rfl, fun k _ => ?_,
      writeResult_cond_and_kept s dst _⟩
    rw [writeResult_reg_same, BitVec.getLsbD_and]
  · refine ⟨s.writeResult dst (s.reg src1 &&& sext imm5), rfl, fun k hk => ?_,
      writeResult_cond_and_kept s dst _⟩
    rw [writeResult_reg_same, BitVec.getLsbD_and, sext_getLsbD_min imm5 hk]

/-- Settles O12: `writeResult` stores the complement, whose every bit below 16 is inverted. -/
theorem notWritesTheComplement : Obligations.NotWritesTheComplement := by
  intro dst src s
  refine ⟨s.writeResult dst (~~~(s.reg src)), rfl, fun k hk => ?_, writeResult_cond_and_kept s dst _⟩
  rw [writeResult_reg_same, BitVec.getLsbD_not, decide_eq_true hk, Bool.true_and]

end Sys2Proof.Machine
end

section
/-! Control transfer (41_control.md): the branch test flag by flag, and the link and jump that JSR and JSRR
share. Then O13 to O17. -/

namespace Sys2Proof.Machine

/-! ### The branch test (41_control.md R130, 10_state.md R27, R29) -/

/-- The mask that tests NEG, ZRO and POS by these bits, high to low. -/
theorem condHolds_flags_iff {s : State} (hs : s.CondLegal) (n z p : Bool) :
    s.CondHolds (BitVec.ofBool n ++ BitVec.ofBool z ++ BitVec.ofBool p) ↔
      (n ∧ s.cond = condNeg) ∨ (z ∧ s.cond = condZro) ∨ (p ∧ s.cond = condPos) := by
  unfold State.CondHolds
  rcases hs with h | h | h <;> rw [h] <;> revert n z p <;> decide

theorem not_condHolds_zero (s : State) : ¬ s.CondHolds 0b000#3 :=
  not_not_intro BitVec.zero_and

/-- With every bit of the mask set, the test asks only that COND is one of its three values. -/
theorem condHolds_ones {s : State} (hs : s.CondLegal) : s.CondHolds 0b111#3 := by
  have hone : (true ∧ s.cond = condNeg) ∨ (true ∧ s.cond = condZro) ∨ (true ∧ s.cond = condPos) := by
    simpa using hs
  exact (condHolds_flags_iff hs true true true).mpr hone

theorem exec_br (mask : BitVec 3) (offset9 : BitVec 9) (s : State) :
    exec (.br mask offset9) s =
      .next (if s.CondHolds mask then s.setPc (s.pcRelative offset9) else s) := by
  rw [exec_eq_next, execState_br]

/-- PC-relative is PC plus the signed value of the offset (00_scope.md R9). -/
theorem pcRelative_eq_add_ofInt {n : Nat} (s : State) (offset : BitVec n) :
    s.pcRelative offset = s.pc + BitVec.ofInt 16 offset.toInt := rfl

/-! ### The link and the jump of JSR and JSRR (41_control.md R133, R134) -/

/-- A jump that links leaves the return address in R7 and its target in PC, and keeps all else. -/
theorem link_target_and_kept {s t : State} {target : Word} (ht : t = (s.setReg 7 s.pc).setPc target) :
    t.reg 7 = s.pc ∧ t.pc = target ∧ RegsKeptBut [7] s t ∧ t.cond = s.cond ∧ MemKeptBut [] s t ∧
      ControlKept s t ∧ HostKept s t := by
  subst ht
  have hlink : ((s.setReg 7 s.pc).setPc target).reg 7 = s.pc := by
    rw [setPc_reg, setReg_reg_same]
  have hregs : RegsKeptBut [7] s ((s.setReg 7 s.pc).setPc target) := fun r hr => by
    rw [setPc_reg, setReg_reg_other s _ (Ne.symm (List.ne_of_not_mem_cons hr))]
  exact ⟨hlink, rfl, hregs, rfl, fun _ _ => rfl, ⟨rfl, rfl, rfl⟩, rfl, rfl, rfl⟩

theorem execState_jsr (offset11 : BitVec 11) (s : State) :
    execState (.jsr offset11) s = (s.setReg 7 s.pc).setPc (s.pcRelative offset11) := rfl

/-- The base is read after the link: base 7 gives the return address just written (log 22). -/
theorem execState_jsrr (base : Reg) (s : State) :
    execState (.jsrr base) s =
      (s.setReg 7 s.pc).setPc (if base = 7 then s.pc else s.reg base) := by
  have hbase : (s.setReg 7 s.pc).reg base = if base = 7 then s.pc else s.reg base := by
    simp only [setReg_reg, eq_comm]
  rw [← hbase]
  rfl

/-! ### O13 to O17 -/

/-- Settles O13: the branch test with its target written out. -/
theorem brBranchesWhenTheMaskMeetsCond : Obligations.BrBranchesWhenTheMaskMeetsCond := by
  intro mask offset9 s
  rw [exec_br, pcRelative_eq_add_ofInt]
  rfl

/-- Settles O14: each bit of the mask tests its flag, no bit tests nothing, and a legal COND passes one
of the three tests. -/
theorem brMaskBitsTestTheirFlags : Obligations.BrMaskBitsTestTheirFlags := by
  intro n z p offset9 s hs
  refine ⟨?_, ?_, ?_⟩
  · simp only [exec_br, condHolds_flags_iff hs]
  · rw [exec_br, if_neg (not_condHolds_zero s)]
  · rw [exec_br, if_pos (condHolds_ones hs)]

/-- Settles O15: RET is JMP with base 7 (41_control.md R132). -/
theorem jmpAndRetLoadPc : Obligations.JmpAndRetLoadPc :=
  ⟨fun _ _ => rfl, fun _ => ⟨rfl, rfl⟩⟩

/-- Settles O16: the link and jump to the wrapped sum of PC and the offset. -/
theorem jsrLinksAndJumps : Obligations.JsrLinksAndJumps := by
  intro offset11 s
  obtain ⟨hlink, hpc, hkept⟩ := link_target_and_kept (execState_jsr offset11 s)
  refine ⟨_, exec_eq_next _ s, hlink, ?_, hkept⟩
  rw [hpc]
  exact add_sext_toNat s.pc offset11

/-- Settles O17: the link and jump to the base register as the link leaves it. -/
theorem jsrrLinksBeforeItReadsTheBase : Obligations.JsrrLinksBeforeItReadsTheBase :=
  fun base s => ⟨_, exec_eq_next _ s, link_target_and_kept (execState_jsrr base s)⟩

end Sys2Proof.Machine
end

section
/-! Loads and stores (42_load_store.md): what a load, and what a store, leaves when some `MemRead`s come
before it. Then O19 to O23. -/

namespace Sys2Proof.Machine

/-! ### The effective addresses (42_load_store.md R157) -/

/-- Base plus offset is the base register plus the signed value of the offset (00_scope.md R9). -/
theorem baseOffset_eq_add_ofInt (s : State) (base : Reg) (offset6 : BitVec 6) :
    s.baseOffset base offset6 = s.reg base + BitVec.ofInt 16 offset6.toInt := rfl

/-! ### Loads (42_load_store.md R150 to R152) -/

theorem AfterReads.keptButMemory {s u : State} (h : AfterReads s u) : KeptButMemory s u := by
  rw [h.eq]
  exact ⟨fun _ _ => rfl, rfl, rfl, ⟨rfl, rfl, rfl⟩, rfl, rfl⟩

/-- Memory and the input are all `MemReadEffect` speaks of, and a result leaves them alone. -/
theorem MemReadEffect.writeResult {a v : Word} {s t : State} (h : MemReadEffect a v s t) (dst : Reg)
    (w : Word) : MemReadEffect a v s (t.writeResult dst w) :=
  ⟨h.plain, h.nothing, h.character, h.endOfStream⟩

/-- The destination takes the Word the load's own read gives, with that read's effect. -/
theorem loadFrom_memReadEffect (s : State) (dst : Reg) (ea : Word) :
    MemReadEffect ea ((s.loadFrom dst ea).reg dst) s (s.loadFrom dst ea) := by
  obtain ⟨hread, _⟩ := memReadPollsOnlyTheStatusAddress s ea
  rw [State.loadFrom, writeResult_reg_same]
  exact hread.writeResult dst _

/-- A load sets COND from its result; of the state before the reads it keeps everything but the
destination, memory and the input. -/
theorem AfterReads.loadFrom_cond_and_kept {s u : State} (h : AfterReads s u) (dst : Reg) (ea : Word) :
    (u.loadFrom dst ea).cond = condCode ((u.loadFrom dst ea).reg dst) ∧
      RegsKeptBut [dst] s (u.loadFrom dst ea) ∧ (u.loadFrom dst ea).pc = s.pc ∧
      ControlKept s (u.loadFrom dst ea) ∧ (u.loadFrom dst ea).output = s.output ∧
      (u.loadFrom dst ea).host = s.host := by
  obtain ⟨hreads, hpc, _, hcontrol, houtput, hhost⟩ := (h.read ea).keptButMemory
  obtain ⟨hcond, hregs, _⟩ := writeResult_cond_and_kept (u.intercept ea) dst (u.memRead ea).1
  exact ⟨hcond, fun r hr => (hregs r hr).trans (hreads r List.not_mem_nil), hpc, hcontrol, houtput,
    hhost⟩

/-! ### Stores (42_load_store.md R154 to R156) -/

theorem memWrite_stores_one_word (s : State) (a v : Word) :
    (s.memWrite a v).arrayRead a = v ∧ MemKeptBut [a] s (s.memWrite a v) :=
  ⟨memWrite_arrayRead_same s a v,
    fun _ hb => memWrite_arrayRead_other s v (Ne.symm (List.ne_of_not_mem_cons hb))⟩

/-- A store after some reads keeps what the reads keep: all but memory and the input. -/
theorem AfterReads.memWrite_keptButMemory {s u : State} (h : AfterReads s u) (a v : Word) :
    KeptButMemory s (u.memWrite a v) :=
  h.keptButMemory

/-! ### O19 to O23 -/

/-- Settles O19: both forms are the load from their effective address. -/
theorem ldAndLdrLoadTheirAddress : Obligations.LdAndLdrLoadTheirAddress := by
  refine ⟨fun dst offset9 s => ?_, fun dst base offset6 s => ?_⟩
  · rw [← pcRelative_eq_add_ofInt]
    exact ⟨s.loadFrom dst (s.pcRelative offset9), rfl, loadFrom_memReadEffect s dst _,
      AfterReads.refl.loadFrom_cond_and_kept dst _⟩
  · rw [← baseOffset_eq_add_ofInt]
    exact ⟨s.loadFrom dst (s.baseOffset base offset6), rfl, loadFrom_memReadEffect s dst _,
      AfterReads.refl.loadFrom_cond_and_kept dst _⟩

/-- Settles O20: the load starts from the state the pointer's read leaves. -/
theorem ldiReadsThroughItsPointer : Obligations.LdiReadsThroughItsPointer := by
  intro dst offset9 s
  rw [← pcRelative_eq_add_ofInt]
  have hpointer : AfterReads s (s.indirect offset9).2 := AfterReads.refl.read (s.pcRelative offset9)
  exact ⟨(s.indirect offset9).2.loadFrom dst (s.indirect offset9).1, rfl,
    loadFrom_memReadEffect _ dst _, hpointer.loadFrom_cond_and_kept dst _⟩

/-- Settles O21: the result is the address itself, the wrapped sum of PC and the offset. -/
theorem leaWritesTheAddress : Obligations.LeaWritesTheAddress := by
  intro dst offset9 s
  refine ⟨s.writeResult dst (s.pcRelative offset9), rfl, ?_, writeResult_cond_and_kept s dst _⟩
  rw [writeResult_reg_same]
  exact add_sext_toNat s.pc offset9

/-- Settles O22: both forms are one plain store, and both addresses are wrapped sums. -/
theorem stAndStrStoreOneWord : Obligations.StAndStrStoreOneWord := by
  refine ⟨fun src offset9 s => ?_, fun src base offset6 s => ?_, fun offset9 s => ?_,
    fun base offset6 s => ?_⟩
  · obtain ⟨hstored, hkept⟩ := memWrite_stores_one_word s (s.pcRelative offset9) (s.reg src)
    exact ⟨_, rfl, hstored, hkept, AfterReads.refl.memWrite_keptButMemory _ _, rfl⟩
  · obtain ⟨hstored, hkept⟩ := memWrite_stores_one_word s (s.baseOffset base offset6) (s.reg src)
    exact ⟨_, rfl, hstored, hkept, AfterReads.refl.memWrite_keptButMemory _ _, rfl⟩
  · exact add_sext_toNat s.pc offset9
  · exact add_sext_toNat (s.reg base) offset6

/-- Settles O23: the store is made in the state the pointer's read leaves. -/
theorem stiStoresThroughItsPointer : Obligations.StiStoresThroughItsPointer := by
  intro src offset9 s
  have hpointer : AfterReads s (s.indirect offset9).2 := AfterReads.refl.read (s.pcRelative offset9)
  obtain ⟨hstored, hkept⟩ :=
    memWrite_stores_one_word (s.indirect offset9).2 (s.indirect offset9).1 (s.reg src)
  exact ⟨_, rfl, hstored, hkept, rfl, hpointer.memWrite_keptButMemory _ _⟩

end Sys2Proof.Machine
end

section
/-! GETC and IN (43_system.md R182, R185, R191): what taking one item of the input leaves, in the cycle of
the instruction and at the end of a wait. Then O28 to O30, O51 and O52. -/

namespace Sys2Proof.Machine

/-! ### Taking one item of the input -/

/-- What a service writes back of the item's Word it takes: IN its low byte, GETC nothing. -/
def WaitService.echo : WaitService → Word → List Byte
  | .getc, _ => []
  | .inChar, v => [lowByte v]

/-- `t` is `s` with the first item taken: its Word in R0, the echo written, the wait over, and all else
as it was. -/
structure TakesItem (x : HostChar) (rest : List HostChar) (echo : List Byte) (s t : State) : Prop where
  word : t.reg 0 = charWord x
  regs : RegsKeptBut [0] s t
  cond : t.cond = s.cond
  pc : t.pc = s.pc
  mem : MemKeptBut [] s t
  running : t.running = s.running
  status : t.status = s.status
  wait : t.wait = none
  input : t.input = rest
  output : t.output = s.output ++ echo
  host : t.host = s.host

theorem resume_takesItem {s : State} {x : HostChar} {rest : List HostChar} (h : s.input = x :: rest)
    (service : WaitService) :
    TakesItem x rest (service.echo (charWord x)) s (s.resume service) := by
  have hregs : RegsKeptBut [0] s (s.setReg 0 (charWord x)) := fun _ hr =>
    setReg_reg_other s _ (Ne.symm (List.ne_of_not_mem_cons hr))
  rw [resume_cons h]
  exact ⟨setReg_reg_same s 0 _, hregs, rfl, rfl, fun _ _ => rfl, rfl, rfl, rfl, rfl,
    by cases service <;> rfl, rfl⟩

section TakesItem

variable {x : HostChar} {rest : List HostChar} {echo : List Byte} {s t : State}

theorem TakesItem.char_toNat (h : TakesItem x rest echo s t) (c : Byte) (hx : x = .char c) :
    (t.reg 0).toNat = c.toNat := by
  rw [h.word, hx, charWord_char_toNat]

theorem TakesItem.eof_word (h : TakesItem x rest echo s t) (hx : x = .eof) :
    t.reg 0 = Config.eofWord := by
  rw [h.word, hx, charWord]

end TakesItem

/-- With nothing to take, a wait goes on as it is. -/
theorem resume_nil {s : State} {service : WaitService} (hw : s.wait = some service)
    (h : s.input = []) : s.resume service = s := by
  cases service with
  | getc => rw [State.resume, finishGetc_nil h, ← hw]
  | inChar => rw [State.resume, finishIn_nil h, ← hw]

/-! ### O28 to O30 -/

/-- Settles O28: GETC takes the item, with no echo. -/
theorem getcReadsOneCharacter : Obligations.GetcReadsOneCharacter := by
  intro s x rest hin
  have h := resume_takesItem hin .getc
  exact ⟨s.resume .getc, rfl, h.char_toNat, h.eof_word, h.regs, h.cond, h.pc, h.mem, h.running,
    h.status, h.wait, h.input, h.output.trans (List.append_nil _), h.host⟩

/-- Settles O29: IN takes the item after its prompt, which touches the output alone. -/
theorem inPromptsReadsAndEchoes : Obligations.InPromptsReadsAndEchoes := by
  intro s x rest hin
  have h := resume_takesItem (s := s.emit Config.inPrompt) hin .inChar
  refine ⟨(s.emit Config.inPrompt).resume .inChar, rfl, h.char_toNat, h.eof_word, ?_, h.regs, h.cond,
    h.pc, h.mem, h.running, h.status, h.wait, h.input, h.host⟩
  rw [h.output, h.word, ← lowByte_eq_setWidth, emit_output, WaitService.echo]

/-- Settles O30: the two reads with nothing available, IN's after its prompt. -/
theorem getcAndInWaitWithoutAnAnswer : Obligations.GetcAndInWaitWithoutAnAnswer :=
  fun s hin => ⟨congrArg Host.Outcome.next (finishGetc_nil hin),
    congrArg Host.Outcome.next (finishIn_nil (s := s.emit Config.inPrompt) hin)⟩

/-! ### O51, O52: the steps of a wait -/

/-- Settles O51: the step of a wait is the host's moves and then a read that finds nothing. -/
theorem waitingStepDoesNothing : Obligations.WaitingStepDoesNothing := by
  intro s hstatus hwait hin
  obtain ⟨service, hw⟩ := Option.ne_none_iff_exists'.1 hwait
  rw [step_of_waiting (.inr hstatus) hw, resume_nil ((hostTurn_wait s).trans hw) hin]

/-- Settles O52: the item is taken from the state the host leaves, whatever Running State is there; the
wait is then over, so the next step checks Running State. -/
theorem interruptedReadFinishesThenHalts : Obligations.InterruptedReadFinishesThenHalts := by
  intro s service x rest hstatus hw hin
  have h := resume_takesItem hin service
  have hrunning : (s.hostTurn.resume service).status = .running :=
    h.status.trans ((hostTurn_status s).trans hstatus)
  refine ⟨_, step_of_waiting (.inr hstatus) hw, h.word,
    fun r hr => (h.regs r hr).trans (hostTurn_reg s r), h.cond.trans (hostTurn_cond s),
    h.pc.trans (hostTurn_pc s), fun a ha => (h.mem a ha).trans (hostTurn_arrayRead s a), h.running,
    h.wait, hrunning, h.input, h.host, ?_, fun hcleared => ?_⟩
  · rw [h.output, hostTurn_output]
    cases service <;> rfl
  · exact step_of_cleared (.inr hrunning) h.wait (hostTurn_running_false (h.running.trans hcleared))

end Sys2Proof.Machine
end

section
/-! PUTS and PUTSP (43_system.md R184, R186): the Words of the string R0 points to, whether a zero Word
ends it or not. Then O32 to O34. -/

namespace Sys2Proof.Machine

/-! ### The string at R0 -/

/-- Words that are not zero stand at the front of the string. -/
theorem stringWords_add {m : Memory} {n : Nat} (left : Nat) {p : Nat}
    (h : ∀ k < n, m.read (p + k) ≠ 0#16) :
    stringWords m (n + left) p =
      (List.range n).map (fun k => m.read (p + k)) ++ stringWords m left (p + n) := by
  induction n generalizing p with
  | zero => simp
  | succ n ih =>
    have hfirst : m.read p ≠ 0#16 := h 0 (by omega)
    have hrest : ∀ k < n, m.read (p + 1 + k) ≠ 0#16 := fun k hk => by
      rw [Nat.add_right_comm]
      exact h (k + 1) (by omega)
    rw [Nat.add_right_comm n 1 left, stringWords, if_neg hfirst, ih hrest, List.range_succ_eq_map]
    simp [Nat.add_comm, Nat.add_left_comm]

theorem stringWords_of_zero {m : Memory} {left p : Nat} (h : m.read p = 0#16) :
    stringWords m left p = [] := by
  cases left with
  | zero => rfl
  | succ left => rw [stringWords, if_pos h]

/-- An address inside the space does not wrap. -/
theorem add_ofNat_toNat {p : Word} {k : Nat} (h : p.toNat + k < 65536) :
    (p + BitVec.ofNat 16 k).toNat = p.toNat + k := by
  rw [BitVec.toNat_add, BitVec.toNat_ofNat, Nat.add_mod_mod, Nat.mod_eq_of_lt h]

theorem arrayRead_add_ofNat (s : State) {p : Word} {k : Nat} (h : p.toNat + k < 65536) :
    s.arrayRead (p + BitVec.ofNat 16 k) = s.mem.read (p.toNat + k) := by
  rw [State.arrayRead, add_ofNat_toNat h]

theorem wordsAtR0_eq {s : State} {n : Nat} (h : (s.reg 0).toNat + n ≤ 65536) :
    s.wordsAtR0 n = (List.range n).map fun k => s.mem.read ((s.reg 0).toNat + k) :=
  List.map_congr_left fun k hk => by
    have hkn := List.mem_range.1 hk
    exact arrayRead_add_ofNat s (by omega)

theorem add_stringRoom (s : State) : (s.reg 0).toNat + s.stringRoom = 65536 :=
  Nat.add_sub_cancel' (s.reg 0).isLt.le

/-- Words at R0 that are not zero are the front of its string. -/
theorem stringAtR0_eq_append {s : State} {n : Nat} (hn : (s.reg 0).toNat + n ≤ 65536)
    (hwords : ∀ v ∈ s.wordsAtR0 n, v ≠ 0#16) :
    s.stringAtR0 = s.wordsAtR0 n ++ stringWords s.mem (s.stringRoom - n) ((s.reg 0).toNat + n) := by
  rw [wordsAtR0_eq hn, List.forall_mem_map] at hwords
  have hroom : s.stringRoom = n + (s.stringRoom - n) := by
    have := add_stringRoom s
    omega
  rw [wordsAtR0_eq hn, ← stringWords_add _ fun k hk => hwords k (List.mem_range.2 hk), ← hroom,
    State.stringAtR0]

/-! ### A string that a zero Word ends, and one that runs past 0xFFFF -/

theorem putString_of_zero {s : State} {n : Nat} (bytesOf : Word → List Byte)
    (hn : (s.reg 0).toNat + n < 65536) (hwords : ∀ v ∈ s.wordsAtR0 n, v ≠ 0#16)
    (hzero : s.arrayRead (s.reg 0 + BitVec.ofNat 16 n) = 0#16) :
    s.putString bytesOf = s.emit ((s.wordsAtR0 n).flatMap bytesOf) := by
  rw [arrayRead_add_ofNat s hn] at hzero
  have hends : stringEnds s.mem s.stringRoom (s.reg 0).toNat = true :=
    (stringEnds_iff _ _ _).2 ⟨n, by have := add_stringRoom s; omega, hzero⟩
  have hstring : s.stringAtR0 = s.wordsAtR0 n := by
    rw [stringAtR0_eq_append hn.le hwords, stringWords_of_zero hzero, List.append_nil]
  rw [State.putString, if_pos hends, hstring]

theorem putString_of_no_zero {s : State} (bytesOf : Word → List Byte)
    (h : ∀ a : Word, s.reg 0 ≤ a → s.arrayRead a ≠ 0#16) :
    s.putString bytesOf =
      (s.emit ((s.wordsAtR0 (65536 - (s.reg 0).toNat)).flatMap bytesOf)).raise
        (.stringOverrun (s.reg 0)) := by
  have hroom := add_stringRoom s
  have hread : ∀ k < s.stringRoom, s.mem.read ((s.reg 0).toNat + k) ≠ 0#16 := fun k hk => by
    have hk16 : (s.reg 0).toNat + k < 65536 := by omega
    rw [← arrayRead_add_ofNat s hk16]
    refine h _ (BitVec.le_def.2 ?_)
    rw [add_ofNat_toNat hk16]
    exact Nat.le_add_right _ _
  have hends : ¬ stringEnds s.mem s.stringRoom (s.reg 0).toNat = true := fun hend => by
    obtain ⟨k, hk, hzero⟩ := (stringEnds_iff _ _ _).1 hend
    exact hread k hk hzero
  have hstring : s.stringAtR0 = s.wordsAtR0 s.stringRoom := by
    rw [wordsAtR0_eq hroom.le]
    exact (stringWords_add 0 hread).trans (List.append_nil _)
  rw [State.putString, if_neg hends, hstring, State.stringRoom]

/-! ### The bytes of a string -/

theorem flatMap_putsBytes (words : List Word) :
    words.flatMap putsBytes = words.map fun (v : Word) => v.setWidth 8 := by
  rw [List.map_eq_flatMap]
  exact congrArg words.flatMap (funext fun v => congrArg (fun b => [b]) (lowByte_eq_setWidth v))

theorem highByte_eq_zero_iff (v : Word) : highByte v = 0#8 ↔ v >>> 8 = 0#16 := by
  rw [← BitVec.toNat_inj, ← BitVec.toNat_inj, highByte_toNat, BitVec.toNat_ushiftRight,
    Nat.shiftRight_eq_div_pow]
  rfl

theorem putspBytes_eq (v : Word) :
    putspBytes v =
      if (v >>> 8) = 0#16 then [v.setWidth 8] else [v.setWidth 8, (v >>> 8).setWidth 8] := by
  simp only [putspBytes, highByte_eq_zero_iff]
  rw [lowByte_eq_setWidth, highByte_eq_setWidth]

theorem exec_puts (s : State) : exec .puts s = .next (s.putString putsBytes) := rfl

theorem exec_putsp (s : State) : exec .putsp s = .next (s.putString putspBytes) := rfl

/-! ### O32 to O34 -/

/-- Settles O32: the string is the Words up to its zero Word, and PUTS writes one byte of each. -/
theorem putsWritesTheString : Obligations.PutsWritesTheString := by
  intro s n hn hwords hzero
  rw [exec_puts, putString_of_zero putsBytes hn hwords hzero, flatMap_putsBytes]
  rfl

/-- Settles O33: as O32, with the bytes of PUTSP. -/
theorem putspWritesThePackedString : Obligations.PutspWritesThePackedString := by
  intro s n hn hwords hzero
  rw [exec_putsp, putString_of_zero putspBytes hn hwords hzero, funext putspBytes_eq]
  rfl

/-- Settles O34: the string is every Word from R0 up to 0xFFFF, written before the fault. -/
theorem stringPastTheTopOverruns : Obligations.StringPastTheTopOverruns := by
  intro s h
  rw [exec_puts, exec_putsp, putString_of_no_zero putsBytes h, putString_of_no_zero putspBytes h,
    flatMap_putsBytes, funext putspBytes_eq]
  exact ⟨rfl, rfl⟩

end Sys2Proof.Machine
end

section
/-! TRAP, OUT, HALT, RTI and RES (43_system.md R180, R183, R187 to R190). O31 and O35 to O39. -/

namespace Sys2Proof

theorem exists_trapVector {i : Instr}
    (h : (∃ vector, i = .trap vector) ∨
      i ∈ [Instr.getc, .out, .puts, .inChar, .putsp, .halt]) :
    ∃ vector, i.trapVector = some vector := by
  have hservices : ∀ j ∈ [Instr.getc, .out, .puts, .inChar, .putsp, .halt],
      j.trapVector.isSome = true := by decide
  rcases h with ⟨vector, rfl⟩ | hservice
  · exact ⟨vector, rfl⟩
  · exact Option.isSome_iff_exists.1 (hservices i hservice)

/-- No TRAP may write R7: GETC and IN write R0, the others nothing (10_state.md R22). -/
theorem seven_not_mem_writtenRegs_trap (vector : BitVec 8) : 7 ∉ (Instr.trap vector).writtenRegs := by
  rw [Instr.writtenRegs]
  split <;> decide

theorem serviceVectors_range : ∀ vector ∈ serviceVectors,
    0x20 ≤ vector.toNat ∧ vector.toNat ≤ 0x25 := by
  decide

/-- The Word of an opcode and twelve low bits, from its number. -/
theorem wordLow_eq_ofNat (op : BitVec 4) (low : BitVec 12) :
    wordLow op low = BitVec.ofNat 16 (op.toNat * 4096 + low.toNat) := by
  rw [← wordLow_toNat, BitVec.ofNat_toNat, BitVec.setWidth_eq]

end Sys2Proof

namespace Sys2Proof.Machine

theorem trapService_of_not_service {vector : BitVec 8} (h : vector ∉ serviceVectors) (s : State) :
    s.trapService vector = s := by
  simp only [serviceVectors, List.mem_cons, List.not_mem_nil, or_false, not_or] at h
  simp only [State.trapService, h, if_false]

/-- Settles O31: the byte is the low byte of R0. -/
theorem outWritesTheLowByte : Obligations.OutWritesTheLowByte :=
  fun s => ⟨lowByte (s.reg 0), lowByte_toNat (s.reg 0), rfl⟩

/-- Settles O35: the fetched Word decodes to HALT, which leaves the machine running but with Running
State cleared, so that the next step halts at the top. -/
theorem haltWritesTheNoticeAndStops : Obligations.HaltWritesTheNoticeAndStops := by
  refine ⟨fun _ => rfl, fun s hready hpc hword => ?_⟩
  obtain ⟨_, hplain⟩ := stepRunsTheDecodedInstruction s hready
  obtain ⟨_, hw, _⟩ := hready
  have hdecode : decode (s.arrayRead s.pc) = .halt := hword ▸ by decide
  refine ⟨_, hplain .halt rfl hpc hdecode, congrArg (· ++ Config.haltNotice) (hostTurn_output s), rfl,
    hostTurn_cond s, fun r _ => hostTurn_reg s r, fun a _ => hostTurn_arrayRead s a, ?_⟩
  exact step_of_cleared (.inr rfl) ((hostTurn_wait s).trans hw) (hostTurn_running_false rfl)

/-- Settles O36: each vector selects its service. -/
theorem trapRunsTheServiceOfItsVector : Obligations.TrapRunsTheServiceOfItsVector :=
  fun _ => ⟨rfl, rfl, rfl, rfl, rfl, rfl⟩

/-- Settles O37: a vector outside the range is no service's. -/
theorem unrecognisedVectorsHaveNoEffect : Obligations.UnrecognisedVectorsHaveNoEffect := by
  intro vector s hrange
  have hvector : vector ∉ serviceVectors := fun hmem => by
    have := serviceVectors_range vector hmem
    omega
  exact congrArg Host.Outcome.next (trapService_of_not_service hvector s)

/-- Settles O38: a TRAP and a service row are the service of a vector, which leaves the four alone. -/
theorem trapSavesNothing : Obligations.TrapSavesNothing := by
  intro i s t hi h
  obtain ⟨vector, hv⟩ := exists_trapVector hi
  obtain rfl := (exec_next_iff i s t).1 h
  have hmem : MemKeptBut [] s (execState i s) := fun a _ => execState_arrayRead_of_trapVector hv s a
  refine ⟨?_, ?_, ?_, hmem⟩ <;> rw [execState_of_trapVector hv]
  · exact trapService_reg s (seven_not_mem_writtenRegs_trap vector)
  · exact trapService_pc s vector
  · exact trapService_cond s vector

/-- Settles O39: the recorded Word is the instruction's own, its opcode above its low bits. -/
theorem rtiAndResRecordTheFault : Obligations.RtiAndResRecordTheFault := by
  intro low s
  have hrti : encode (.rti low) = BitVec.ofNat 16 (0x8000 + low.toNat) := wordLow_eq_ofNat 0x8#4 low
  have hres : encode (.res low) = BitVec.ofNat 16 (0xD000 + low.toNat) := wordLow_eq_ofNat 0xD#4 low
  rw [← hrti, ← hres]
  exact ⟨rfl, rfl⟩

end Sys2Proof.Machine
end

section
/-! What one instruction leaves of the run status, Running State, the wait and the host's two streams
(60_exceptions.md R213, R223). Then O40 and O43. -/

namespace Sys2Proof

/-! ### A service's row stands in the tables as the TRAP of its vector -/

theorem mayFault_of_trapVector {i : Instr} {vector : BitVec 8} (h : i.trapVector = some vector) :
    i.mayFault = (Instr.trap vector).mayFault := by
  cases i <;> cases h <;> rfl

theorem writesOutput_of_trapVector {i : Instr} {vector : BitVec 8} (h : i.trapVector = some vector) :
    i.writesOutput = (Instr.trap vector).writesOutput := by
  cases i <;> cases h <;> rfl

theorem readsHost_of_trapVector {i : Instr} {vector : BitVec 8} (h : i.trapVector = some vector) :
    i.readsHost = (Instr.trap vector).readsHost := by
  cases i <;> cases h <;> rfl

end Sys2Proof

namespace Sys2Proof.Machine

/-! ### What a trap service leaves -/

/-- GETC consumes the first item, where there is one. -/
theorem finishGetc_input (s : State) : s.finishGetc.input = s.input.tail := by
  rcases finishGetc_cases s with ⟨hi, h⟩ | ⟨_, _, hi, h⟩ <;> simp [h, hi]

/-- IN consumes the first item, where there is one. -/
theorem finishIn_input (s : State) : s.finishIn.input = s.input.tail := by
  rcases finishIn_cases s with ⟨hi, h⟩ | ⟨_, _, hi, h⟩ <;> simp [h, hi]

theorem finishIn_output_prefix (s : State) : s.output <+: s.finishIn.output := by
  rcases finishIn_cases s with ⟨_, h⟩ | ⟨_, _, _, h⟩ <;> rw [h]
  exact List.prefix_append _ _

/-- Only PUTS and PUTSP can fault (60_exceptions.md R213). -/
theorem trapService_status_of_mayFault_false (s : State) {vector : BitVec 8}
    (hv : (Instr.trap vector).mayFault = false) : (s.trapService vector).status = s.status := by
  rcases trapService_cases s vector with
    ⟨_, h⟩ | ⟨_, h⟩ | ⟨rfl, _⟩ | ⟨_, h⟩ | ⟨rfl, _⟩ | ⟨_, h⟩ | ⟨_, h⟩
  · rw [h, finishGetc_status]
  · rw [h, State.serviceOut, emit_status]
  · exact absurd hv (by decide)
  · rw [h, State.serviceIn, finishIn_status, emit_status]
  · exact absurd hv (by decide)
  · rw [h, State.serviceHalt, stopRunning_status, emit_status]
  · rw [h]

/-- Only GETC and IN wait or read the input: PUTS and PUTSP poll nothing (20_memory.md R56). -/
theorem trapService_keeps_wait_and_input (s : State) {vector : BitVec 8}
    (hv : (Instr.trap vector).readsHost = false) :
    (s.trapService vector).wait = s.wait ∧ (s.trapService vector).input = s.input := by
  rcases trapService_cases s vector with
    ⟨rfl, _⟩ | ⟨_, h⟩ | ⟨_, h⟩ | ⟨rfl, _⟩ | ⟨_, h⟩ | ⟨_, h⟩ | ⟨_, h⟩
  · exact absurd hv (by decide)
  · rw [h]
    exact ⟨rfl, rfl⟩
  · rw [h]
    exact ⟨putString_wait s putsBytes, putString_input s putsBytes⟩
  · exact absurd hv (by decide)
  · rw [h]
    exact ⟨putString_wait s putspBytes, putString_input s putspBytes⟩
  · rw [h]
    exact ⟨rfl, rfl⟩
  · rw [h]
    exact ⟨rfl, rfl⟩

theorem trapService_input_suffix (s : State) (vector : BitVec 8) :
    (s.trapService vector).input <:+ s.input := by
  rcases trapService_cases s vector with
    ⟨_, h⟩ | ⟨_, h⟩ | ⟨_, h⟩ | ⟨_, h⟩ | ⟨_, h⟩ | ⟨_, h⟩ | ⟨_, h⟩ <;> rw [h]
  · exact finishGetc_input s ▸ List.tail_suffix s.input
  · exact List.suffix_rfl
  · exact putString_input s putsBytes ▸ List.suffix_rfl
  · exact finishIn_input (s.emit Config.inPrompt) ▸ List.tail_suffix s.input
  · exact putString_input s putspBytes ▸ List.suffix_rfl
  · exact List.suffix_rfl

theorem trapService_output_prefix (s : State) (vector : BitVec 8) :
    s.output <+: (s.trapService vector).output := by
  rcases trapService_cases s vector with
    ⟨_, h⟩ | ⟨_, h⟩ | ⟨_, h⟩ | ⟨_, h⟩ | ⟨_, h⟩ | ⟨_, h⟩ | ⟨_, h⟩ <;> rw [h]
  · exact finishGetc_output s ▸ List.prefix_rfl
  · exact List.prefix_append _ _
  · exact putString_output s putsBytes ▸ List.prefix_append _ _
  · exact (List.prefix_append _ _).trans (finishIn_output_prefix (s.emit Config.inPrompt))
  · exact putString_output s putspBytes ▸ List.prefix_append _ _
  · exact List.prefix_append _ _

/-- Of the services only GETC writes nothing, and of the other vectors none has an effect. -/
theorem trapService_output_of_writesOutput_false (s : State) {vector : BitVec 8}
    (hv : (Instr.trap vector).writesOutput = false) : (s.trapService vector).output = s.output := by
  rcases trapService_cases s vector with
    ⟨_, h⟩ | ⟨rfl, _⟩ | ⟨rfl, _⟩ | ⟨rfl, _⟩ | ⟨rfl, _⟩ | ⟨rfl, _⟩ | ⟨_, h⟩
  · rw [h, finishGetc_output]
  · exact absurd hv (by decide)
  · exact absurd hv (by decide)
  · exact absurd hv (by decide)
  · exact absurd hv (by decide)
  · exact absurd hv (by decide)
  · rw [h]

/-! ### What `MemRead`s leave -/

theorem AfterReads.wait {s u : State} (h : AfterReads s u) : u.wait = s.wait := by
  rw [h.eq]

theorem AfterReads.output {s u : State} (h : AfterReads s u) : u.output = s.output := by
  rw [h.eq]

theorem AfterReads.host {s u : State} (h : AfterReads s u) : u.host = s.host := by
  rw [h.eq]

theorem intercept_input_suffix (s : State) (a : Word) : (s.intercept a).input <:+ s.input := by
  unfold State.intercept
  split
  · exact pollKeyboard_input s ▸ List.tail_suffix s.input
  · exact List.suffix_rfl

theorem AfterReads.input_suffix {s u : State} (h : AfterReads s u) : u.input <:+ s.input := by
  induction h with
  | refl => exact List.suffix_rfl
  | read a _ ih => exact (intercept_input_suffix _ a).trans ih

/-- One of an instruction's `MemRead`s leaves the input alone if none of them is of 0xFE00. -/
theorem intercept_input_of_mem (s : State) {reads : List Word} {b : Word}
    (hreads : Config.kbsr ∉ reads) (hb : b ∈ reads) : (s.intercept b).input = s.input :=
  congrArg State.input (intercept_other s fun h => hreads (h ▸ hb))

/-! ### What an instruction leaves, by its kind -/

section Fields

variable {i : Instr} {s t : State}

theorem ExecEffect.wait (h : ExecEffect i s t) (hi : i.readsHost = false) : t.wait = s.wait := by
  cases h with
  | result _ _ reads | store _ _ _ reads => exact reads.wait
  | service vectorOf =>
    exact (trapService_keeps_wait_and_input s ((readsHost_of_trapVector vectorOf).symm.trans hi)).1
  | jump | call | unsupported => rfl

theorem ExecEffect.host (h : ExecEffect i s t) : t.host = s.host := by
  cases h with
  | result _ _ reads | store _ _ _ reads => exact reads.host
  | service => exact trapService_host s _
  | jump | call | unsupported => rfl

theorem ExecEffect.input_suffix (h : ExecEffect i s t) : t.input <:+ s.input := by
  cases h with
  | result _ _ reads | store _ _ _ reads => exact reads.input_suffix
  | service => exact trapService_input_suffix s _
  | jump | call | unsupported => exact List.suffix_rfl

theorem ExecEffect.output_prefix (h : ExecEffect i s t) : s.output <+: t.output := by
  cases h with
  | result _ _ reads | store _ _ _ reads => exact reads.output ▸ List.prefix_rfl
  | service => exact trapService_output_prefix s _
  | jump | call | unsupported => exact List.prefix_rfl

theorem ExecEffect.output (h : ExecEffect i s t) (hi : i.writesOutput = false) :
    t.output = s.output := by
  cases h with
  | result _ _ reads | store _ _ _ reads => exact reads.output
  | service vectorOf =>
    exact trapService_output_of_writesOutput_false s
      ((writesOutput_of_trapVector vectorOf).symm.trans hi)
  | jump | call | unsupported => rfl

end Fields

/-! ### What an instruction leaves, by the tables of those that fault and those that read -/

theorem execState_status_of_mayFault_false {i : Instr} (hi : i.mayFault = false) (s : State) :
    (execState i s).status = s.status := by
  cases i with
  | addReg | addImm | andReg | andImm | not | lea | jmp | ret | jsr | jsrr | st | str => rfl
  | br mask offset9 =>
    rw [execState_br]
    split <;> rfl
  | ld | ldr | sti => exact (AfterReads.read _ .refl).status
  | ldi => exact (AfterReads.read _ (.read _ .refl)).status
  | trap | getc | out | inChar | halt =>
    rw [execState_of_trapVector rfl]
    exact trapService_status_of_mayFault_false s hi
  | puts | putsp | rti | res => cases hi

theorem execState_input_of_not_read {i : Instr} {s : State} (hi : i.readsHost = false)
    (hreads : Config.kbsr ∉ i.memReads s) : (execState i s).input = s.input := by
  cases i with
  | ld | ldr | sti => exact intercept_input_of_mem s hreads (List.mem_singleton_self _)
  | ldi dst offset9 =>
    have hpointer := intercept_input_of_mem s hreads List.mem_cons_self
    have hpointee := intercept_input_of_mem (s.indirect offset9).2 hreads
      (List.mem_cons_of_mem _ (List.mem_singleton_self _))
    exact hpointee.trans hpointer
  | br mask offset9 =>
    rw [execState_br]
    split <;> rfl
  | trap | out | puts | putsp | halt =>
    rw [execState_of_trapVector rfl]
    exact And.right (trapService_keeps_wait_and_input s hi)
  | getc | inChar => cases hi
  | addReg | addImm | andReg | andImm | not | lea | jmp | ret | jsr | jsrr | st | str | rti | res => rfl

theorem execState_running_of_halt {i : Instr} (hi : i = .halt ∨ i = .trap 0x25#8) (s : State) :
    (execState i s).running = false := by
  rcases hi with rfl | rfl <;> rfl

/-! ### O40, O43 -/

/-- Settles O40: what the instruction leaves of each field, by its kind and by the tables. -/
theorem everyInstructionAnswersANextState : Obligations.EveryInstructionAnswersANextState := by
  intro i s
  have heffect := execState_effect i s
  refine ⟨execState i s, exec_eq_next i s, fun hstatus => ?_, fun hrunning => ?_, fun hwait => ?_⟩
  · obtain ⟨hfault, _⟩ := heffect.status.resolve_left hstatus
    exact ⟨Bool.of_not_eq_false fun hi => hstatus (execState_status_of_mayFault_false hi s), hfault⟩
  · have hhalt := heffect.running.resolve_left hrunning
    exact ⟨execState_running_of_halt hhalt s, hhalt⟩
  · exact Bool.of_not_eq_false fun hi => hwait (heffect.wait hi)

/-- Settles O43: what the instruction leaves of each stream, by its kind and by its reads. -/
theorem hostStreamsMoveOnlyByTheirUsers : Obligations.HostStreamsMoveOnlyByTheirUsers := by
  intro i s t h
  have heffect := exec_effect h
  obtain rfl := (exec_next_iff i s t).1 h
  exact ⟨heffect.output_prefix, heffect.output, heffect.input_suffix,
    execState_input_of_not_read, heffect.host⟩

end Sys2Proof.Machine
end

section
/-! Every step answers, and what an unsupported Word does to a run (60_exceptions.md R210 to R213, R226).
Then O47 and O48. -/

namespace Sys2Proof

/-- An instruction that examines its whole Word, as RTI and RES do for their fault, encodes to it. -/
theorem encode_decode_of_examined {w : Word} (h : (decode w).examined = 0xFFFF#16) :
    encode (decode w) = w := by
  have hones : 0xFFFF#16 = BitVec.allOnes 16 := rfl
  have hkept := encodeOfDecodeKeepsExaminedBits w
  rwa [h, hones, BitVec.and_allOnes, BitVec.and_allOnes] at hkept

end Sys2Proof

namespace Sys2Proof.Machine

/-! ### Every step answers a next state or the recorded fault -/

theorem coreTurn_answers (s : State) : ∃ t, coreTurn s = .next t := by
  rcases coreTurn_cases s with ⟨_, _, h⟩ | ⟨_, _, h⟩ | ⟨_, _, h⟩
  · exact ⟨_, h⟩
  · exact ⟨_, h⟩
  · exact ⟨_, h.trans (exec_eq_next _ _)⟩

theorem step_faults_or_answers (s : State) :
    (∃ f, s.status = .faulted f ∧ step s = .fault f) ∨ s.Safe ∧ ∃ t, step s = .next t := by
  rcases step_cases s with ⟨hactive, h⟩ | ⟨hhalted, h⟩ | hfault
  · refine .inr ⟨fun f hf => ?_, h ▸ coreTurn_answers s.hostTurn⟩
    rcases hactive with hs | hs <;> exact absurd (hs.symm.trans hf) nofun
  · exact .inr ⟨fun f hf => absurd (hhalted.symm.trans hf) nofun, s, h⟩
  · exact .inl hfault

/-! ### A Word with RTI's or RES's opcode -/

/-- RTI and RES raise the fault with their own Word (43_system.md R189, R190). -/
theorem exec_of_rti_or_res {i : Instr} (hi : (∃ low, i = .rti low) ∨ ∃ low, i = .res low) (s : State) :
    exec i s = .next (s.raiseUnsupported (encode i)) := by
  rcases hi with ⟨low, rfl⟩ | ⟨low, rfl⟩ <;> rfl

theorem exec_decode_of_unsupported {w : Word}
    (hw : w.extractLsb' 12 4 = 0b1000#4 ∨ w.extractLsb' 12 4 = 0b1101#4) (s : State) :
    exec (decode w) s = .next (s.raiseUnsupported w) := by
  have hi : (∃ low, decode w = .rti low) ∨ ∃ low, decode w = .res low :=
    hw.imp (fun h => ⟨_, decode_of_opcode_rti (congrArg BitVec.toNat h)⟩)
      (fun h => ⟨_, decode_of_opcode_res (congrArg BitVec.toNat h)⟩)
  have hexamined : (decode w).examined = 0xFFFF#16 := by
    rcases hi with ⟨low, h⟩ | ⟨low, h⟩ <;> rw [h] <;> rfl
  rw [exec_of_rti_or_res hi, encode_decode_of_examined hexamined]

/-! ### O47, O48 -/

/-- Settles O47: a faulted machine's step is its fault, any other's a next state. -/
theorem stepFaultsExactlyWhenFaulted : Obligations.StepFaultsExactlyWhenFaulted := by
  intro s
  rcases step_faults_or_answers s with ⟨f, hf, hs⟩ | ⟨hsafe, t, hs⟩
  · refine ⟨fun g => ?_, fun r h => absurd (hs.symm.trans h) nofun, fun hsafe => absurd hf (hsafe f)⟩
    rw [hs, hf, Host.Outcome.fault.injEq, RunStatus.faulted.injEq]
  · exact ⟨fun f => ⟨fun h => absurd (hs.symm.trans h) nofun, fun hf => absurd hf (hsafe f)⟩,
      fun r h => absurd (hs.symm.trans h) nofun, fun _ => ⟨t, hs⟩⟩

/-- Settles O48: away from 0xFE00 the fetch is a plain read, so the fault is raised with the Word at PC in
the state the host leaves, and PC, one further, less one is where it was fetched from. -/
theorem unsupportedWordEndsTheRun : Obligations.UnsupportedWordEndsTheRun := by
  intro s hready hpc hword
  have hfault : (s.fetched.raiseUnsupported (s.arrayRead s.pc)).status =
      .faulted (.unsupported s.pc (s.arrayRead s.pc)) := by
    rw [State.raiseUnsupported, raise_status, State.fetched, setPc_pc, BitVec.add_sub_cancel]
  refine ⟨s.fetched.raiseUnsupported (s.arrayRead s.pc), ?_, hfault, rfl, ?_, ?_, ?_, ?_,
    step_of_faulted hfault⟩
  · rw [step_of_ready hready, fetchedWord_of_ne_kbsr hpc, exec_decode_of_unsupported hword]
  all_goals rw [fetched_of_ne_kbsr hpc]
  · exact fun r _ => hostTurn_reg s r
  · exact hostTurn_cond s
  · exact fun a _ => hostTurn_arrayRead s a
  · exact hostTurn_output s

end Sys2Proof.Machine
end

section
/-! The host's moves before a step (60_exceptions.md R214, R215): what they touch, and what of its schedule
a step looks at. Then O50 and O54. -/

namespace Sys2Proof.Machine

/-! ### The host's turn -/

/-- The item an event makes available, if it does. -/
def HostEvent.delivered : HostEvent → Option HostChar
  | .deliver x => some x
  | .interrupt => none

theorem foldl_hostEvent_input (events : List HostEvent) (s : State) :
    (events.foldl State.hostEvent s).input = s.input ++ events.filterMap HostEvent.delivered := by
  induction events generalizing s with
  | nil => exact (List.append_nil _).symm
  | cons e events ih =>
    rw [List.foldl_cons, ih]
    cases e with
    | deliver x => exact List.append_assoc s.input [x] _
    | interrupt => rfl

theorem foldl_hostEvent_eq (events : List HostEvent) (s : State) :
    events.foldl State.hostEvent s =
      { s with
        input := s.input ++ events.filterMap HostEvent.delivered,
        running := s.running && !decide (HostEvent.interrupt ∈ events) } := by
  obtain ⟨more, h⟩ := foldl_hostEvent events s
  have hmore : s.input ++ more = s.input ++ events.filterMap HostEvent.delivered :=
    (congrArg State.input h).symm.trans (foldl_hostEvent_input events s)
  rw [h, hmore, List.contains_eq_mem]

theorem hostTurn_of_cons {s : State} {events : List HostEvent} {later : List (List HostEvent)}
    (h : s.host = events :: later) :
    s.hostTurn = events.foldl State.hostEvent (s.withHost later) := by
  simp only [State.hostTurn, h]
  rfl

/-! ### The core with another schedule -/

theorem withHost_execState (i : Instr) (s : State) (x : List (List HostEvent)) :
    execState i (s.withHost x) = (execState i s).withHost x := by
  cases i with
  | addReg | addImm | andReg | andImm | not | lea | jmp | ret | jsr | jsrr | st | str | rti | res => rfl
  | br mask offset9 =>
    rw [execState_br, execState_br]
    by_cases h : s.CondHolds mask
    · rw [if_pos h, if_pos (c := (s.withHost x).CondHolds mask) h]
      rfl
    · rw [if_neg h, if_neg (c := (s.withHost x).CondHolds mask) h]
  | ld dst offset9 => exact withHost_loadFrom s x dst (s.pcRelative offset9)
  | ldr dst base offset6 => exact withHost_loadFrom s x dst (s.baseOffset base offset6)
  | ldi dst offset9 =>
    rw [execState_ldi, execState_ldi, withHost_indirect_fst, withHost_indirect_snd, withHost_loadFrom]
  | sti src offset9 =>
    rw [execState_sti, execState_sti, withHost_indirect_fst, withHost_indirect_snd]
    rfl
  | trap | getc | out | puts | inChar | putsp | halt =>
    rw [execState_of_trapVector rfl, execState_of_trapVector rfl, withHost_trapService]

theorem withHost_exec {i : Instr} {s t : State} (h : exec i s = .next t) (x : List (List HostEvent)) :
    exec i (s.withHost x) = .next (t.withHost x) := by
  obtain rfl := (exec_next_iff i s t).1 h
  rw [exec_eq_next, withHost_execState]

theorem withHost_resume (s : State) (x : List (List HostEvent)) (service : WaitService) :
    (s.withHost x).resume service = (s.resume service).withHost x := by
  cases service with
  | getc => exact withHost_finishGetc s x
  | inChar => exact withHost_finishIn s x

theorem withHost_fetch (s : State) (x : List (List HostEvent)) :
    (s.withHost x).fetch = (s.fetch.1, s.fetch.2.withHost x) :=
  Prod.ext (withHost_memRead_fst s x s.pc)
    (congrArg (State.setPc · (s.pc + 1#16)) (withHost_intercept s x s.pc))

theorem cycle_of_running {s : State} (h : s.running = true) :
    cycle s = exec (decode { s with status := .running }.fetch.1) { s with status := .running }.fetch.2 :=
  if_pos h

theorem cycle_of_cleared {s : State} (h : s.running = false) :
    cycle s = .next { s with status := .halted } := by
  simp [cycle, h]

theorem withHost_cycle {s t : State} (h : cycle s = .next t) (x : List (List HostEvent)) :
    cycle (s.withHost x) = .next (t.withHost x) := by
  cases hr : s.running with
  | false =>
    obtain rfl := Host.Outcome.next.inj ((cycle_of_cleared hr).symm.trans h)
    exact cycle_of_cleared (s := s.withHost x) hr
  | true =>
    have hfetch : ({ s.withHost x with status := .running } : State).fetch = _ :=
      withHost_fetch { s with status := .running } x
    rw [cycle_of_running (s := s.withHost x) hr, hfetch]
    exact withHost_exec ((cycle_of_running hr).symm.trans h) x

/-- The core's own move does not look at the schedule, and leaves it as it is. -/
theorem withHost_coreTurn {s t : State} (h : coreTurn s = .next t) (x : List (List HostEvent)) :
    coreTurn (s.withHost x) = .next (t.withHost x) := by
  cases hw : s.wait with
  | some service =>
    simp only [coreTurn, withHost_wait, hw] at h ⊢
    obtain rfl := Host.Outcome.next.inj h
    rw [withHost_resume]
  | none =>
    simp only [coreTurn, withHost_wait, hw] at h ⊢
    exact withHost_cycle h x

/-! ### O50, O54 -/

/-- Settles O50: the events one by one, from the state with its schedule moved on. -/
theorem hostTouchesOnlyInputAndRunning : Obligations.HostTouchesOnlyInputAndRunning := by
  intro s events later h
  rw [hostTurn_of_cons h, foldl_hostEvent_eq]
  rfl

/-- Settles O54: with the same first list the host's turn differs in the rest of the schedule only, and
the core's own move does not look at it. -/
theorem laterHostEventsDoNotMatter : Obligations.LaterHostEventsDoNotMatter := by
  intro s t events later other hactive h
  have hturn : ({ s with host := events :: other } : State).hostTurn =
      ({ s with host := events :: later } : State).hostTurn.withHost other := by
    rw [hostTurn_of_cons rfl, hostTurn_of_cons rfl, foldl_hostEvent_eq, foldl_hostEvent_eq]
    rfl
  have hcore := (step_of_active (s := { s with host := events :: later }) hactive).symm.trans h
  rw [step_of_active (s := { s with host := events :: other }) hactive, hturn]
  exact withHost_coreTurn hcore other

end Sys2Proof.Machine
end

section
/-! The image loader and the boot sequence (70_reset_and_hazards.md R240 to R246): O58, O59 and O60. -/

namespace Sys2Proof.Machine

/-! ### What the loop of `Load` leaves in memory (R242) -/

theorem wordOfBytes_eq_ofNat (hi lo : Byte) :
    wordOfBytes hi lo = BitVec.ofNat 16 (hi.toNat * 256 + lo.toNat) := by
  rw [← wordOfBytes_toNat, BitVec.ofNat_toNat, BitVec.setWidth_eq]

theorem loadWords_of_le (hi lo : Byte) (rest : List Byte) {a : Nat} (m : Memory) (h : a ≤ 0xFFFF) :
    loadWords (hi :: lo :: rest) a m = loadWords rest (a + 1) (m.write a (wordOfBytes hi lo)) :=
  if_pos h

theorem loadWords_of_gt (hi lo : Byte) (rest : List Byte) {a : Nat} (m : Memory) (h : ¬a ≤ 0xFFFF) :
    loadWords (hi :: lo :: rest) a m = m :=
  if_neg h

/-- Outside the complete Words that fit, nothing changes: below the origin, past 0xFFFF (R243), at a
trailing byte and after it. -/
theorem read_loadWords_outside (b : List Byte) (a : Nat) (m : Memory) {x : Nat}
    (hx : ¬(a ≤ x ∧ x ≤ 0xFFFF ∧ 2 * (x - a) + 1 < b.length)) : (loadWords b a m).read x = m.read x := by
  induction b, a, m using loadWords.induct with
  | case1 hi lo rest a m ha ih =>
    have ha : a ≤ 0xFFFF := ha
    simp only [List.length_cons] at hx
    rw [loadWords_of_le _ _ _ _ ha, ih (by omega), read_write_other _ _ (by omega)]
  | case2 hi lo rest a m ha => rw [loadWords_of_gt _ _ _ _ ha]
  | case3 | case4 => rfl

/-- The `i`-th complete Word of the stream, if it fits, stands `i` addresses after the first. -/
theorem read_loadWords_word (b : List Byte) (a : Nat) (m : Memory) {i : Nat} (htop : a + i ≤ 0xFFFF)
    (hi : 2 * i + 1 < b.length) :
    (loadWords b a m).read (a + i) = wordOfBytes b[2 * i] b[2 * i + 1] := by
  induction b, a, m using loadWords.induct generalizing i with
  | case1 high low rest a m ha ih =>
    rw [loadWords_of_le _ _ _ _ ha]
    cases i with
    | zero => rw [read_loadWords_outside _ _ _ (by omega)]; exact read_write_same m a _
    | succ i =>
      simp only [List.length_cons] at hi
      rw [← Nat.add_assoc, Nat.add_right_comm]
      exact ih (i := i) (by omega) (by omega)
  | case2 high low rest a m ha => exact absurd htop fun h => ha (Nat.le_of_add_right_le h)
  | case3 | case4 => simp at hi

theorem Memory.Wf.loadWords {m : Memory} (hm : m.Wf) (b : List Byte) (a : Nat) :
    (loadWords b a m).Wf := by
  induction b, a, m using loadWords.induct with
  | case1 hi lo rest a m ha ih =>
    rw [loadWords_of_le _ _ _ _ ha]
    exact ih (hm.write (Nat.lt_succ_of_le ha) _)
  | case2 hi lo rest a m ha => rwa [loadWords_of_gt _ _ _ _ ha]
  | case3 | case4 => exact hm

/-! ### `Load` and the sequence of images (R241, R242, R244, R245) -/

theorem loadImage_of_origin (hi lo : Byte) (body : List Byte) (m : Memory) :
    loadImage (hi :: lo :: body) m = some (loadWords body (hi.toNat * 256 + lo.toNat) m) := by
  rw [← wordOfBytes_toNat]; rfl

theorem loadImage_eq_none_iff (b : List Byte) (m : Memory) : loadImage b m = none ↔ b.length < 2 := by
  match b with
  | [] | [_] => simp [loadImage]
  | hi :: lo :: body => simp [loadImage_of_origin]

theorem Memory.Wf.loadImage {b : List Byte} {m m' : Memory} (hm : m.Wf) (h : loadImage b m = some m') :
    m'.Wf := by
  match b with
  | [] | [_] => cases h
  | hi :: lo :: body =>
    obtain rfl := Option.some.inj ((loadImage_of_origin hi lo body m).symm.trans h)
    exact hm.loadWords _ _

theorem loadImages_cons (b : List Byte) (bs : List (List Byte)) (m : Memory) :
    loadImages (b :: bs) m = (loadImage b m).bind (loadImages bs) := rfl

theorem loadImages_append_singleton (images : List (List Byte)) (last : List Byte) (m : Memory) :
    loadImages (images ++ [last]) m = (loadImages images m).bind (loadImage last) := by
  induction images generalizing m with
  | nil => exact Option.bind_fun_some _
  | cons b bs ih =>
    rw [List.cons_append, loadImages_cons, loadImages_cons, Option.bind_assoc]
    exact Option.bind_congr fun m' _ => ih m'

theorem loadImages_eq_none_iff (images : List (List Byte)) (m : Memory) :
    loadImages images m = none ↔ ∃ b ∈ images, b.length < 2 := by
  induction images generalizing m with
  | nil => simp [loadImages]
  | cons b bs ih =>
    rw [loadImages_cons, List.exists_mem_cons_iff, ← loadImage_eq_none_iff b m]
    cases hb : loadImage b m with
    | none => simp
    | some m' => simpa using ih m'

theorem Memory.Wf.loadImages {images : List (List Byte)} {m m' : Memory} (hm : m.Wf)
    (h : loadImages images m = some m') : m'.Wf := by
  induction images generalizing m with
  | nil => exact Option.some.inj h ▸ hm
  | cons b bs ih =>
    obtain ⟨m₁, hb, hbs⟩ := Option.bind_eq_some_iff.1 h
    exact ih (hm.loadImage hb) hbs

/-! ### The booted machine (R241, R246) -/

/-- A successful boot is reset with another memory, in canonical form. -/
theorem eq_reset_of_boot {images : List (List Byte)} {s : State} (h : State.boot images = some s) :
    s.mem.Wf ∧ s = { State.reset with mem := s.mem } := by
  obtain ⟨m, hm, rfl⟩ := Option.map_eq_some_iff.1 h
  exact ⟨wf_nil.loadImages hm, rfl⟩

/-- The invariant speaks of memory only by its canonical form. -/
theorem State.Inv.withMem {s : State} (h : s.Inv) {m : Memory} (hm : m.Wf) : { s with mem := m }.Inv where
  memWf := hm
  condLegal := h.condLegal
  waitLegal := h.waitLegal
  haltLegal := h.haltLegal

/-- With any memory, the machine at reset first runs the Word at `PC_START`. -/
theorem step_reset_withMem (m : Memory) :
    step { State.reset with mem := m } = exec (decode (m.read 0x3000))
      { State.reset with mem := m, status := .running, pc := 0x3001#16 } := by
  have hready : ({ State.reset with mem := m } : State).Ready := ⟨.inl rfl, rfl, rfl⟩
  have hpc : ({ State.reset with mem := m } : State).pc ≠ Config.kbsr := by
    change Config.pcStart ≠ Config.kbsr
    decide
  rw [step_of_ready hready, fetchedWord_of_ne_kbsr hpc, fetched_of_ne_kbsr hpc]
  rfl

/-! ### O58, O59, O60 -/

/-- Settles O58: inside the image's complete Words that fit the loop stores the Word, outside them it
changes nothing. -/
theorem loadedImageReadsBack : Obligations.LoadedImageReadsBack := by
  intro hi lo body m
  refine ⟨_, loadImage_of_origin hi lo body m, fun a => ?_⟩
  split
  case isTrue h =>
    obtain ⟨horigin, htop, hlen⟩ := h
    have hread := read_loadWords_word body _ m ((Nat.add_sub_cancel' horigin).trans_le htop) hlen
    rwa [Nat.add_sub_cancel' horigin, wordOfBytes_eq_ofNat] at hread
  case isFalse h => exact read_loadWords_outside body _ m h

/-- Settles O59, by induction on the images for both parts. -/
theorem imagesLoadInOrder : Obligations.ImagesLoadInOrder :=
  ⟨loadImages_append_singleton, loadImages_eq_none_iff⟩

/-- Settles O60: the images change memory only and keep its canonical form, and reset is ready to fetch
away from 0xFE00. -/
theorem bootedMachineStartsAtPcStart : Obligations.BootedMachineStartsAtPcStart := by
  intro images s h
  obtain ⟨hm, hs⟩ := eq_reset_of_boot h
  rw [hs]
  exact ⟨resetMeetsTheInvariant.withMem hm, rfl, step_reset_withMem s.mem⟩

end Sys2Proof.Machine
end
